-- ==== Sys2Proof/Config.lean ====
section
/-! DEFINITION. What an implementation fixes: the address family and the widths of `spec/00_scope.md` rules R7
and R8. The family is the unit's only parameter; the spec leaves no value open, so there is no free value here. The other
parameters of R8 are the same for every unit and stand as numerals in the types: `PLEN_W` 8 (a prefix length is a
`BitVec 8`), `NREG` 4 (`RegNum` is `Fin 4`), `CMD_W` 16, `ERR_W` 2, `STATUS_W` 8. -/

namespace Sys2Proof

/-- The address family of a built unit (R7, `10_state.md` R15): exactly two, and no third (R4). -/
inductive Family where
  | v4
  | v6
deriving DecidableEq, Repr

/-- Element width in bits (R7): octets on v4, hextets on v6 (`90_conflicts.md` C2). -/
abbrev Family.W : Family → Nat
  | .v4 => 8
  | .v6 => 16

/-- Element count (R7). -/
abbrev Family.N : Family → Nat
  | .v4 => 4
  | .v6 => 8

/-- Total bits of an address, `T = W × N` (R7). -/
abbrev Family.T (F : Family) : Nat := F.W * F.N

/-- `DATA_W = T + PLEN_W` with `PLEN_W = 8`, the width of the payload and of the read data (R8): 40 on v4, 136 on v6. -/
abbrev Family.dataW (F : Family) : Nat := F.T + 8

end Sys2Proof
end

