-- ==== Sys2Proof/Syntax.lean ====
section
/-! DEFINITION. The commands of the unit, one constructor per row of `spec/opcode_table.json`
(`spec/30_encoding.md` rule R45). A register operand is a register number 0 to 3, and all four are legal wherever a
command uses the field (R44), so every term of `Instr` is a command. -/

namespace Sys2Proof

/-- The number of an address register `A0` to `A3` (`10_state.md` R18). -/
abbrev RegNum := Fin 4

/-- The eleven commands (R45). `rd` is the destination, `ra` the left source, `rb` the right source (R44). The
payload of `LD` is no part of the command word (R42, R51): it arrives on the data port beside it. Each docstring
gives the source's name of the operation (R57). -/
inductive Instr where
  /-- construct an address value from the payload (`40_transfer.md` R59) -/
  | ld (rd : RegNum)
  /-- `RD`: read an address value out (`40_transfer.md` R60); the name `rd` is the destination operand's -/
  | readOut (ra : RegNum)
  /-- copy (`40_transfer.md` R61) -/
  | mov (rd ra : RegNum)
  /-- `~a` (`41_bitwise.md` R64) -/
  | not (rd ra : RegNum)
  /-- `a & b` (`41_bitwise.md` R66) -/
  | and (rd ra rb : RegNum)
  /-- `a | b` (`41_bitwise.md` R67) -/
  | or (rd ra rb : RegNum)
  /-- `a ^ b` (`41_bitwise.md` R68) -/
  | xor (rd ra rb : RegNum)
  /-- `netmask(a)` (`42_netmask.md` R75) -/
  | mask (rd ra : RegNum)
  /-- `network(a)` (`43_derive.md` R78) -/
  | net (rd ra : RegNum)
  /-- `broadcast(a)` (`43_derive.md` R80) -/
  | bcast (rd ra : RegNum)
  /-- read the status register; the spec's own command (`44_system.md` R82) -/
  | rdst
deriving DecidableEq, Repr

end Sys2Proof
end

