-- ==== Sys2Proof/WellFormed.lean ====
section
/-! DEFINITION. When the fields of a command word are those of a command: `spec/30_encoding.md` rules R45 to R48,
written as checks on the five fields of format C (R43). A term of `Instr` is well-formed by its type, so what can be
ill-formed is a word. The decoder (Decode.lean) follows the pseudocode R54 instead; that the two agree is a statement. -/

namespace Sys2Proof

/-- The five fields of format C (R43). -/
structure Fields where
  op : BitVec 4
  rd : BitVec 2
  ra : BitVec 2
  rb : BitVec 2
  zero : BitVec 6
deriving DecidableEq, Repr

/-- Which register fields a command uses: the column "uses" of R45. -/
structure Uses where
  rd : Bool
  ra : Bool
  rb : Bool
deriving DecidableEq, Repr

/-- The "uses" column by opcode; `none` is a reserved opcode (R45, R48). -/
def usesOf (op : BitVec 4) : Option Uses :=
  match op.toNat with
  | 0x1 => some ⟨true, false, false⟩
  | 0x2 => some ⟨false, true, false⟩
  | 0x3 | 0x4 | 0x8 | 0x9 | 0xA => some ⟨true, true, false⟩
  | 0x5 | 0x6 | 0x7 => some ⟨true, true, true⟩
  | 0xB => some ⟨false, false, false⟩
  | _ => none

/-- R47: the field `zero` is 0. -/
abbrev Fields.ZeroClear (f : Fields) : Prop := f.zero = 0

/-- R48: the opcode is not reserved. -/
abbrev Fields.OpDefined (f : Fields) : Prop := (usesOf f.op).isSome

/-- R46: a register field the command does not use is 0. -/
abbrev Fields.UnusedClear (f : Fields) : Prop :=
  ∀ u, usesOf f.op = some u → (u.rd ∨ f.rd = 0) ∧ (u.ra ∨ f.ra = 0) ∧ (u.rb ∨ f.rb = 0)

/-- The fields are those of a legal command word: the three checks together, as a test that runs. -/
def Fields.wellFormed (f : Fields) : Bool :=
  f.zero == 0 &&
    match usesOf f.op with
    | none => false
    | some u => (u.rd || f.rd == 0) && (u.ra || f.ra == 0) && (u.rb || f.rb == 0)

/-- The fields are those of a legal command word (R46 to R48). -/
abbrev Fields.WellFormed (f : Fields) : Prop := f.wellFormed = true

end Sys2Proof
end

