-- ==== Sys2Proof/Word.lean ====
section
/-! DEFINITION. The words of the unit and their plainest arithmetic, `spec/00_scope.md` rules R9 and R12: unsigned
values of `n` bits, bit 0 the least significant. `and`, `or`, `xor` of two values of equal width are the operators
`&&&`, `|||`, `^^^` of `BitVec`; nothing in the unit is signed. -/

namespace Sys2Proof

/-- A value of `n` bits (R9). -/
abbrev Bits (n : Nat) := BitVec n

/-- `ones(n)`: every bit 1 (R12). -/
abbrev ones (n : Nat) : Bits n := BitVec.allOnes n

/-- `not_n(v)`: the complement in exactly `n` bits (R12). -/
abbrev notBits {n : Nat} (v : Bits n) : Bits n := ~~~v

/-- `shl_n(v, k)`: a left shift that keeps the low `n` bits; a shift by `n` gives 0 (R12). -/
abbrev shl {n : Nat} (v : Bits n) (k : Nat) : Bits n := v <<< k

end Sys2Proof
end

