-- ==== Sys2Proof/Decode.lean ====
section
/-! DEFINITION. The decoder, total on every 16-bit word (`spec/30_encoding.md` rule R54), and the encoder that
inverts it, both from format C (R43) and the opcode map (R45). Decoding looks at nothing but the word (R49). -/

namespace Sys2Proof

/-- Why a word is illegal. The unit raises `IllegalCommand` for each alike (`60_exceptions.md` R85). -/
inductive Illegal where
  /-- the field `zero` is not 0 (R47) -/
  | zeroField
  /-- the opcode is 0x0 or 0xC to 0xF (R48) -/
  | reservedOpcode
  /-- a register field the command does not use is not 0 (R46) -/
  | unusedField
deriving DecidableEq, Repr

/-- The fields of a command word at the bit positions of R43. -/
def fieldsOf (cmd : BitVec 16) : Fields where
  op := cmd.extractLsb' 12 4
  rd := cmd.extractLsb' 10 2
  ra := cmd.extractLsb' 8 2
  rb := cmd.extractLsb' 6 2
  zero := cmd.extractLsb' 0 6

/-- The command word with the given fields: `op ‖ rd ‖ ra ‖ rb ‖ zero` (R43). -/
def Fields.word (f : Fields) : BitVec 16 := f.op ++ f.rd ++ f.ra ++ f.rb ++ f.zero

/-- The register a 2-bit field names (R44). -/
def regOf (b : BitVec 2) : RegNum := b.toFin

/-- The 2-bit field that names a register (R44). -/
def regField (r : RegNum) : BitVec 2 := BitVec.ofFin r

/-- `c` where the fields it does not use are clear, else illegal (R46). -/
def requireClear (clear : Bool) (c : Instr) : Except Illegal Instr :=
  if clear then .ok c else .error .unusedField

/-- The command the fields select, when `zero` is 0: the `case op of` of R54. -/
def decodeFields (f : Fields) : Except Illegal Instr :=
  match f.op.toNat with
  | 0x1 => requireClear (f.ra == 0 && f.rb == 0) (.ld (regOf f.rd))
  | 0x2 => requireClear (f.rd == 0 && f.rb == 0) (.readOut (regOf f.ra))
  | 0x3 => requireClear (f.rb == 0) (.mov (regOf f.rd) (regOf f.ra))
  | 0x4 => requireClear (f.rb == 0) (.not (regOf f.rd) (regOf f.ra))
  | 0x5 => .ok (.and (regOf f.rd) (regOf f.ra) (regOf f.rb))
  | 0x6 => .ok (.or (regOf f.rd) (regOf f.ra) (regOf f.rb))
  | 0x7 => .ok (.xor (regOf f.rd) (regOf f.ra) (regOf f.rb))
  | 0x8 => requireClear (f.rb == 0) (.mask (regOf f.rd) (regOf f.ra))
  | 0x9 => requireClear (f.rb == 0) (.net (regOf f.rd) (regOf f.ra))
  | 0xA => requireClear (f.rb == 0) (.bcast (regOf f.rd) (regOf f.ra))
  | 0xB => requireClear (f.rd == 0 && f.ra == 0 && f.rb == 0) .rdst
  | _ => .error .reservedOpcode

/-- `decode` (R54): total, from the word alone; an illegal word is rejected by the name of its fault in form. -/
def decode (cmd : BitVec 16) : Except Illegal Instr :=
  let f := fieldsOf cmd
  if f.zero = 0 then decodeFields f else .error .zeroField

/-- The fields of a command; unused fields are 0 (R46, R54). -/
def Instr.fields : Instr → Fields
  | .ld rd => ⟨0x1, regField rd, 0, 0, 0⟩
  | .readOut ra => ⟨0x2, 0, regField ra, 0, 0⟩
  | .mov rd ra => ⟨0x3, regField rd, regField ra, 0, 0⟩
  | .not rd ra => ⟨0x4, regField rd, regField ra, 0, 0⟩
  | .and rd ra rb => ⟨0x5, regField rd, regField ra, regField rb, 0⟩
  | .or rd ra rb => ⟨0x6, regField rd, regField ra, regField rb, 0⟩
  | .xor rd ra rb => ⟨0x7, regField rd, regField ra, regField rb, 0⟩
  | .mask rd ra => ⟨0x8, regField rd, regField ra, 0, 0⟩
  | .net rd ra => ⟨0x9, regField rd, regField ra, 0, 0⟩
  | .bcast rd ra => ⟨0xA, regField rd, regField ra, 0, 0⟩
  | .rdst => ⟨0xB, 0, 0, 0, 0⟩

/-- `encode` (R54): the command word of a command. -/
def encode (i : Instr) : BitVec 16 := i.fields.word

/-- The command word that `nbits` bits of value `w` give, bits above `nbits` being 0 (log 13). -/
def tableWord (nbits w : Nat) : BitVec 16 := BitVec.ofNat 16 (w % 2 ^ nbits)

/-- The command the decoder reads from `nbits` bits of value `w`, numbered as `spec/opcode_table.json` numbers them;
a command is one 16-bit word (R42), so more than 16 bits are no command (log 13). -/
def decodeTableWord (nbits w : Nat) : Option Instr :=
  if nbits ≤ 16 then (decode (tableWord nbits w)).toOption else none

/-- One row of the opcode map R45: the mnemonic with the two numbers that select it. -/
structure OpcodeRow where
  mnemonic : String
  matchWord : BitVec 16
  maskWord : BitVec 16
deriving DecidableEq, Repr

/-- The match and mask columns of R45, row for row (also `spec/opcode_table.json`). -/
def opcodeMap : List OpcodeRow :=
  [⟨"LD", 0x1000, 0xF3FF⟩, ⟨"RD", 0x2000, 0xFCFF⟩, ⟨"MOV", 0x3000, 0xF0FF⟩, ⟨"NOT", 0x4000, 0xF0FF⟩,
   ⟨"AND", 0x5000, 0xF03F⟩, ⟨"OR", 0x6000, 0xF03F⟩, ⟨"XOR", 0x7000, 0xF03F⟩, ⟨"MASK", 0x8000, 0xF0FF⟩,
   ⟨"NET", 0x9000, 0xF0FF⟩, ⟨"BCAST", 0xA000, 0xF0FF⟩, ⟨"RDST", 0xB000, 0xFFFF⟩]

/-- The row selects the word: `(cmd & mask) = match` (R45). -/
def OpcodeRow.selects (row : OpcodeRow) (cmd : BitVec 16) : Bool := cmd &&& row.maskWord == row.matchWord

/-- The mnemonic of a command (R45, R57). -/
def Instr.mnemonic : Instr → String
  | .ld _ => "LD"
  | .readOut _ => "RD"
  | .mov _ _ => "MOV"
  | .not _ _ => "NOT"
  | .and _ _ _ => "AND"
  | .or _ _ _ => "OR"
  | .xor _ _ _ => "XOR"
  | .mask _ _ => "MASK"
  | .net _ _ => "NET"
  | .bcast _ _ => "BCAST"
  | .rdst => "RDST"

end Sys2Proof
end

