-- ==== Sys2Proof/Machine/State.lean ====
section
/-! DEFINITION. The state of the machine as plain data: the unit's architectural state (`spec/10_state.md` R26) and,
beside it, the command port with the host's remaining events and the responses given (`spec/70_reset_and_hazards.md`
R104, R105). The unit has no memory and no program counter (`10_state.md` R21, R24), so State has neither. -/

namespace Sys2Proof.Machine

/-- An address value of family `F`: `N` elements of `W` bits, element 0 the most significant, and the prefix length
(`10_state.md` R14, `00_scope.md` R10). Every bit pattern is representable; R19 is an invariant, not part of the type. -/
structure AddressValue (F : Family) where
  e : Vector (BitVec F.W) F.N
  plen : BitVec 8
deriving DecidableEq, Repr

/-- The STATUS register (`10_state.md` R22): its two sticky flags. Bits 7:2 are hardwired 0 and have no storage
(`93_implementation_defined.md` U11, log 11); `Status.word` reads the register as 8 bits. -/
structure Status where
  /-- bit 0: some command since reset faulted with IllegalCommand -/
  ill : Bool
  /-- bit 1: some LD since reset faulted with InvalidPrefixLength -/
  ipl : Bool
deriving DecidableEq, Repr

/-- The unit's whole architectural state (`10_state.md` R26). -/
structure UnitState (F : Family) where
  /-- the four address registers `A0` to `A3` (R18) -/
  A : Vector (AddressValue F) 4
  /-- the status register (R22) -/
  STATUS : Status
deriving DecidableEq, Repr

/-- A command as the port carries it: the word and its payload (`30_encoding.md` R42). -/
structure Command (F : Family) where
  cmd : BitVec 16
  wdata : BitVec F.dataW
deriving DecidableEq, Repr

/-- A response (`30_encoding.md` R52): the 2-bit fault code and the read data. -/
structure Response (F : Family) where
  err : BitVec 2
  rdata : BitVec F.dataW
deriving DecidableEq, Repr

/-- What the host does to the unit (`00_scope.md` R6): present a command, or apply reset between two commands
(`70_reset_and_hazards.md` R96; log 7). -/
inductive Event (F : Family) where
  | command (c : Command F)
  | reset
deriving DecidableEq, Repr

/-- The command port and the host's side of it. None of this is state of the unit (`10_state.md` R26; log 2, 3, 4). -/
structure Port (F : Family) where
  /-- the payload lines during the command being executed (`30_encoding.md` R42; log 3) -/
  wdata : BitVec F.dataW
  /-- what the host will still do, in issue order (`20_memory.md` R38; log 4) -/
  pending : List (Event F)
  /-- the responses given so far, oldest first (`70_reset_and_hazards.md` R105) -/
  responses : List (Response F)
deriving DecidableEq, Repr

/-- The machine: one built unit of a fixed family (`10_state.md` R16; log 1) and its port. -/
structure State where
  family : Family
  unit : UnitState family
  port : Port family
deriving DecidableEq, Repr

/-- The unit's two faults (`60_exceptions.md` R84). They are effects of a command, after which the unit goes on (R91);
the model takes them as next states (log 8). -/
inductive FaultKind where
  | illegalCommand
  | invalidPrefixLength
deriving DecidableEq, Repr

/-- Reasons the machine stops with a fault: none. Every fault of the unit is a response and a sticky flag, and the
unit "does not stop, lock or refuse further commands after a fault" (`60_exceptions.md` R91; log 8). -/
inductive Fault : Type where
deriving DecidableEq, Repr

/-- Reasons the model has no next state. -/
inductive Refusal where
  /-- An instruction with no meaning yet; raised by an arm of `exec` only; safe. -/
  | notModelled (mnemonic : String)
  /-- `MASK`, `NET` or `BCAST` of a register whose prefix length exceeds `T`: `netmask_F` has no value there
  (`42_netmask.md` R76, `93_implementation_defined.md` U2, treatment `refuse`). Raised by those three meanings in
  states no run from reset reaches (`10_state.md` R19); safe (log 6). -/
  | prefixBeyondFamily
deriving DecidableEq, Repr

/-- The address value with every element 0 and prefix length 0 (`10_state.md` R27). -/
def AddressValue.zero (F : Family) : AddressValue F := ⟨Vector.replicate F.N 0, 0⟩

/-- STATUS = 0x00 (`10_state.md` R27). -/
def Status.clear : Status := ⟨false, false⟩

/-- The reset state of a unit (`10_state.md` R27). -/
def UnitState.reset (F : Family) : UnitState F := ⟨Vector.replicate 4 (AddressValue.zero F), .clear⟩

/-- A port nobody has used: nothing pending, no response given, payload lines 0 (log 3, 4). -/
def Port.idle (F : Family) : Port F := ⟨0, [], []⟩

/-- A freshly built unit of family `F` (`70_reset_and_hazards.md` R96). -/
def State.resetOf (F : Family) : State := ⟨F, UnitState.reset F, Port.idle F⟩

/-- The machine right after reset. The spec leaves the family to whoever builds the unit; here it is v4 (log 1). -/
def State.reset : State := State.resetOf .v4

end Sys2Proof.Machine
end

