-- ==== Sys2Proof/Machine/Flags.lean ====
section
/-! DEFINITION. The two sticky flags of STATUS (`spec/10_state.md` R22, R23) and the fault codes of a response
(`spec/30_encoding.md` R52). The unit has no other flag. -/

namespace Sys2Proof.Machine

/-- STATUS read as 8 bits: bit 0 `ILL`, bit 1 `IPL`, bits 7:2 zero (R22). -/
def Status.word (st : Status) : BitVec 8 := 0#6 ++ BitVec.ofBool st.ipl ++ BitVec.ofBool st.ill

/-- STATUS with the flag of a fault's kind set and the other unchanged (`60_exceptions.md` R84, R90). -/
def Status.set (st : Status) : FaultKind → Status
  | .illegalCommand => { st with ill := true }
  | .invalidPrefixLength => { st with ipl := true }

/-- The flag of a fault's kind (R84). -/
def Status.flag (st : Status) : FaultKind → Bool
  | .illegalCommand => st.ill
  | .invalidPrefixLength => st.ipl

/-- The fault code of a fault (R84); code 3 is never produced (R52). -/
def FaultKind.code : FaultKind → BitVec 2
  | .illegalCommand => 1
  | .invalidPrefixLength => 2

/-- The code of a command that executed (R52). -/
def okCode : BitVec 2 := 0

end Sys2Proof.Machine
end

