-- ==== Sys2Proof/Machine/Operands.lean ====
section
/-! DEFINITION. The operand forms of the unit: an address value as one `T`-bit number, its layout on the data port
(`spec/00_scope.md` R10, `spec/20_memory.md` R32), and the size of its host portion (`spec/20_memory.md` R31). -/

namespace Sys2Proof.Machine

variable {F : Family}

/-- `e[0] ‖ e[1] ‖ …` for a list of elements, kept to `n` bits: each further element enters below the ones before
it, so earlier elements are more significant (`20_memory.md` R30). -/
def concat (w n : Nat) (es : List (BitVec w)) : BitVec n :=
  es.foldl (fun acc x => acc <<< w ||| x.setWidth n) 0

/-- `flat(a) = e[0] ‖ … ‖ e[N−1]` (R10). -/
def AddressValue.flat (a : AddressValue F) : BitVec F.T := concat F.W F.T a.e.toList

/-- `pack(a) = flat(a) ‖ plen` (R10). -/
def AddressValue.pack (a : AddressValue F) : BitVec F.dataW := a.flat ++ a.plen

/-- `unpack(v)`: `e[i] = v[8+(N−i)·W−1 : 8+(N−1−i)·W]`, `plen = v[7:0]` (R10, `30_encoding.md` R50). Total. -/
def unpack (v : BitVec F.dataW) : AddressValue F where
  e := Vector.ofFn fun i => v.extractLsb' (8 + (F.N - 1 - i) * F.W) F.W
  plen := v.extractLsb' 0 8

/-- The value has a prefix length its family admits (`10_state.md` R19). -/
abbrev AddressValue.Valid (a : AddressValue F) : Prop := a.plen.toNat ≤ F.T

/-- The number of host-portion bits, `T − plen` (`20_memory.md` R31); used where `plen ≤ T` (R12). -/
def AddressValue.hostBits (a : AddressValue F) : Nat := F.T - a.plen.toNat

/-- Bit position `j` of an address, counted from the most significant end: `flat(a)[T−1−j]` (R10). -/
def AddressValue.leadingBit (a : AddressValue F) (j : Nat) : Bool := a.flat.getMsbD j

/-- STATUS's 8 bits, or any narrower word, zero-extended to the read data: `zext_DATA_W` (R11). -/
def zextData {n : Nat} (v : BitVec n) : BitVec F.dataW := v.setWidth F.dataW

end Sys2Proof.Machine
end

