-- ==== Sys2Proof/Machine/Ops.lean ====
section
/-! DEFINITION. The named operations over the registers and the port: `A[r]`, `A[r] <- v`, `respond`, `raise`
(`spec/00_scope.md` R11), reset (`spec/70_reset_and_hazards.md` R96), and how the host's next event reaches the unit.
There is no return from a fault to stand beside `raise`: nothing was entered (`spec/60_exceptions.md` R91). -/

namespace Sys2Proof.Machine

variable {F : Family}

/-- `A[r]`: the whole record (R11, `10_state.md` R18). -/
def UnitState.read (u : UnitState F) (r : RegNum) : AddressValue F := u.A[r]

/-- `A[r] <- v`: the whole record, elements and prefix length together (R11, `20_memory.md` R35). -/
def UnitState.write (u : UnitState F) (r : RegNum) (v : AddressValue F) : UnitState F := { u with A := u.A.set r v }

/-- `STATUS.<flag> <- 1` for a fault's kind (R11, `60_exceptions.md` R90). -/
def UnitState.setFlag (u : UnitState F) (k : FaultKind) : UnitState F := { u with STATUS := u.STATUS.set k }

/-- `respond(err, rdata)`: the response of the command is given (R11, `30_encoding.md` R52). -/
def Port.respond (p : Port F) (err : BitVec 2) (rdata : BitVec F.dataW) : Port F :=
  { p with responses := p.responses ++ [⟨err, rdata⟩] }

/-- A command that writes `A[rd]` and returns no data completes: `A[rd] <- v; respond(OK, 0)`. -/
def State.complete (s : State) (rd : RegNum) (v : AddressValue s.family) : State :=
  ⟨s.family, s.unit.write rd v, s.port.respond okCode 0⟩

/-- A command that only returns data completes: `respond(OK, rdata)` (`20_memory.md` R36). -/
def State.answer (s : State) (rdata : BitVec s.family.dataW) : State :=
  ⟨s.family, s.unit, s.port.respond okCode rdata⟩

/-- `raise <Fault>` (`60_exceptions.md` R90): no address register is written, the flag of the fault's kind is set,
the response is `(code, 0)`, and nothing else happens. -/
def State.raise (s : State) (k : FaultKind) : State :=
  ⟨s.family, s.unit.setFlag k, s.port.respond k.code 0⟩

/-- A command that computes its result by an engine function which has no value on some arguments: where it has one
the command completes with it, where it has none the model has no next state (`42_netmask.md` R76; log 6). -/
def State.completeWith (s : State) (rd : RegNum) : Option (AddressValue s.family) → Host.Outcome State Fault Refusal
  | some v => .next (s.complete rd v)
  | none => .refused .prefixBeyondFamily

/-- The reset event (`70_reset_and_hazards.md` R96): the unit goes to its reset state, no response is given, and the
family stays (R97). -/
def State.applyReset (s : State) : State := ⟨s.family, UnitState.reset s.family, s.port⟩

/-- The host's next event leaves its list. -/
def State.withPending (s : State) (rest : List (Event s.family)) : State :=
  ⟨s.family, s.unit, { s.port with pending := rest }⟩

/-- The host presents a command: its payload is on the data lines while it executes (`30_encoding.md` R42; log 3). -/
def State.present (s : State) (wdata : BitVec s.family.dataW) (rest : List (Event s.family)) : State :=
  ⟨s.family, s.unit, { s.port with wdata := wdata, pending := rest }⟩

/-- The host will issue one more command before all it would have issued (log 4). -/
def State.presentFirst (s : State) (c : Command s.family) : State :=
  ⟨s.family, s.unit, { s.port with pending := .command c :: s.port.pending }⟩

end Sys2Proof.Machine
end

