-- ==== Sys2Proof/Machine/Bitwise.lean ====
section
/-! DEFINITION. The bitwise engine functions and the commands NOT, AND, OR and XOR (`spec/41_bitwise.md`). -/

namespace Sys2Proof.Machine

variable {F : Family}

/-- One operation in every lane (R62): element `i` of the result from element `i` of both operands; the prefix length
is the left operand's and the right one's has no effect (R65, R69). -/
def AddressValue.lanes (f : BitVec F.W → BitVec F.W → BitVec F.W) (a b : AddressValue F) : AddressValue F where
  e := Vector.ofFn fun i => f a.e[i] b.e[i]
  plen := a.plen

/-- `not_F` (R63): the complement of every element in exactly `W` bits; the prefix length is copied. -/
def AddressValue.notF (a : AddressValue F) : AddressValue F where
  e := Vector.ofFn fun i => notBits a.e[i]
  plen := a.plen

/-- `and_F` (R65). -/
def AddressValue.andF (a b : AddressValue F) : AddressValue F := AddressValue.lanes (· &&& ·) a b

/-- `or_F` (R65). -/
def AddressValue.orF (a b : AddressValue F) : AddressValue F := AddressValue.lanes (· ||| ·) a b

/-- `xor_F` (R65). -/
def AddressValue.xorF (a b : AddressValue F) : AddressValue F := AddressValue.lanes (· ^^^ ·) a b

/-- `NOT rd, ra` (R64). -/
def execNot (rd ra : RegNum) (s : State) : Host.Outcome State Fault Refusal :=
  .next (s.complete rd (s.unit.read ra).notF)

/-- `AND rd, ra, rb` (R66). -/
def execAnd (rd ra rb : RegNum) (s : State) : Host.Outcome State Fault Refusal :=
  .next (s.complete rd ((s.unit.read ra).andF (s.unit.read rb)))

/-- `OR rd, ra, rb` (R67). -/
def execOr (rd ra rb : RegNum) (s : State) : Host.Outcome State Fault Refusal :=
  .next (s.complete rd ((s.unit.read ra).orF (s.unit.read rb)))

/-- `XOR rd, ra, rb` (R68). -/
def execXor (rd ra rb : RegNum) (s : State) : Host.Outcome State Fault Refusal :=
  .next (s.complete rd ((s.unit.read ra).xorF (s.unit.read rb)))

end Sys2Proof.Machine
end

