-- ==== Sys2Proof/Machine/Netmask.lean ====
section
/-! DEFINITION. The mask engine and the command MASK (`spec/42_netmask.md`). -/

namespace Sys2Proof.Machine

variable {F : Family}

/-- Step 3 of R72, from element `i − 1` down, with `rem` bits still to shift off: it stops when `rem` is 0 or the
indices are exhausted (`90_conflicts.md` C5). -/
def maskWalk : (i rem : Nat) → Vector (BitVec F.W) F.N → Vector (BitVec F.W) F.N
  | 0, _, m => m
  | i + 1, rem, m =>
    if rem = 0 then m
    else
      let k := min rem F.W
      maskWalk i (rem - k) (m.setIfInBounds i (shl (ones F.W) k))

/-- `netmask_F` (R72): every element all-ones, then the walk from the last element with `rem = T − plen`; the prefix
length is the argument's (R71). Defined on `plen ≤ T` only (R76; log 6). -/
def AddressValue.netmaskF (a : AddressValue F) : Option (AddressValue F) :=
  if a.Valid then some ⟨maskWalk F.N a.hostBits (Vector.replicate F.N (ones F.W)), a.plen⟩ else none

/-- `MASK rd, ra` (R75). -/
def execMask (rd ra : RegNum) (s : State) : Host.Outcome State Fault Refusal :=
  s.completeWith rd (s.unit.read ra).netmaskF

end Sys2Proof.Machine
end

