-- ==== Sys2Proof/Machine/Derive.lean ====
section
/-! DEFINITION. The network and broadcast derivations and the commands NET and BCAST (`spec/43_derive.md`), the same
formula on both families (R80, `90_conflicts.md` C6). -/

namespace Sys2Proof.Machine

variable {F : Family}

/-- `network_F(a) = a & netmask(a)` (R77), where `netmask_F` has a value. -/
def AddressValue.networkF (a : AddressValue F) : Option (AddressValue F) := a.netmaskF.map fun m => a.andF m

/-- `broadcast_F(a) = a | ~netmask(a)` (R79), where `netmask_F` has a value. -/
def AddressValue.broadcastF (a : AddressValue F) : Option (AddressValue F) := a.netmaskF.map fun m => a.orF m.notF

/-- `NET rd, ra` (R78). -/
def execNet (rd ra : RegNum) (s : State) : Host.Outcome State Fault Refusal :=
  s.completeWith rd (s.unit.read ra).networkF

/-- `BCAST rd, ra` (R80). -/
def execBcast (rd ra : RegNum) (s : State) : Host.Outcome State Fault Refusal :=
  s.completeWith rd (s.unit.read ra).broadcastF

end Sys2Proof.Machine
end

