-- ==== Sys2Proof/Machine/SystemCommand.lean ====
section
/-! DEFINITION. The system command RDST (`spec/44_system.md`), the only one (R83). -/

namespace Sys2Proof.Machine

/-- `RDST` (R82): respond with STATUS, zero-extended; nothing is cleared (`10_state.md` R23). -/
def execRdst (s : State) : Host.Outcome State Fault Refusal :=
  .next (s.answer (zextData s.unit.STATUS.word))

end Sys2Proof.Machine
end

