-- ==== Sys2Proof/Machine/Transfer.lean ====
section
/-! DEFINITION. The transfer commands LD, RD and MOV (`spec/40_transfer.md`). -/

namespace Sys2Proof.Machine

/-- `LD rd` (R59): the payload is unpacked; a prefix length above `T` raises InvalidPrefixLength and nothing is
written (`60_exceptions.md` R86), else the whole value is written. -/
def execLd (rd : RegNum) (s : State) : Host.Outcome State Fault Refusal :=
  let v := unpack s.port.wdata
  if v.Valid then .next (s.complete rd v) else .next (s.raise .invalidPrefixLength)

/-- `RD ra` (R60): respond with `pack(A[ra])`. -/
def execRd (ra : RegNum) (s : State) : Host.Outcome State Fault Refusal :=
  .next (s.answer (s.unit.read ra).pack)

/-- `MOV rd, ra` (R61): copy elements and prefix length. -/
def execMov (rd ra : RegNum) (s : State) : Host.Outcome State Fault Refusal :=
  .next (s.complete rd (s.unit.read ra))

end Sys2Proof.Machine
end

