-- ==== Sys2Proof/Machine/Dispatch.lean ====
section
/-! DEFINITION. One arm per command: `perform` of `spec/30_encoding.md` rule R55. -/

namespace Sys2Proof.Machine

def exec (i : Instr) (s : State) : Host.Outcome State Fault Refusal :=
  match i with
  | .ld rd => Sys2Proof.Machine.execLd rd s
  | .readOut ra => Sys2Proof.Machine.execRd ra s
  | .mov rd ra => Sys2Proof.Machine.execMov rd ra s
  | .not rd ra => Sys2Proof.Machine.execNot rd ra s
  | .and rd ra rb => Sys2Proof.Machine.execAnd rd ra rb s
  | .or rd ra rb => Sys2Proof.Machine.execOr rd ra rb s
  | .xor rd ra rb => Sys2Proof.Machine.execXor rd ra rb s
  | .mask rd ra => Sys2Proof.Machine.execMask rd ra s
  | .net rd ra => Sys2Proof.Machine.execNet rd ra s
  | .bcast rd ra => Sys2Proof.Machine.execBcast rd ra s
  | .rdst => Sys2Proof.Machine.execRdst s

end Sys2Proof.Machine
end

