-- ==== Sys2Proof/Machine/Step.lean ====
section
/-! DEFINITION. One step of the machine: the host's next event reaches the unit (`spec/30_encoding.md` R55,
`spec/70_reset_and_hazards.md` R96). -/

namespace Sys2Proof.Machine

/-- One step. With nothing pending the unit does nothing and holds its state (`00_scope.md` R6; log 5). A reset event
puts the unit in its reset state (R96). A command is decoded before any operand is read (R55, `60_exceptions.md` R89):
an illegal word raises IllegalCommand, a legal one is performed. -/
def step (s : State) : Host.Outcome State Fault Refusal :=
  match s.port.pending with
  | [] => .next s
  | .reset :: rest => .next (s.withPending rest).applyReset
  | .command c :: rest =>
    match decode c.cmd with
    | .error _ => .next ((s.present c.wdata rest).raise .illegalCommand)
    | .ok i => exec i (s.present c.wdata rest)

/-- `s` with the word presented as the host's next command, its payload 0 (log 4). Nothing else changes. -/
def State.withFetchWord (s : State) (nbits w : Nat) : State := s.presentFirst ⟨tableWord nbits w, 0⟩

end Sys2Proof.Machine
end

