-- ==== Sys2Proof/Machine/Assembler.lean ====
section
/-! DEFINITION. The assembler notation of `spec/30_encoding.md` rules R56 and R58, from a line already split into its
mnemonic and operands to the command the host presents (log 12). It is where the source's `ElementCountMismatch` lives
(`spec/60_exceptions.md` R87): the unit itself cannot be given a wrong element count. -/

namespace Sys2Proof.Machine

variable {F : Family}

/-- The forms of the operand `<value>` of `LD` (R56). -/
inductive Literal where
  /-- a `DATA_W`-bit hexadecimal number -/
  | hex (n : Nat)
  /-- element values in braces, then the prefix length -/
  | elements (es : List Nat) (p : Nat)
  /-- the dotted form, on a v4 unit only, with the same meaning -/
  | dotted (es : List Nat) (p : Nat)
deriving DecidableEq, Repr

/-- A source line: a command and, for `LD`, its value (R56). One line is one command word (R58). -/
structure Line where
  instr : Instr
  value : Option Literal
deriving DecidableEq, Repr

/-- Why a line cannot be assembled (R56). -/
inductive AsmError where
  /-- the element count is not `N`: the source's `ElementCountMismatch` (R87) -/
  | elementCount
  /-- an element does not fit in `W` bits -/
  | elementRange
  /-- the prefix length does not fit in 8 bits -/
  | prefixRange
  /-- the number does not fit in `DATA_W` bits -/
  | hexRange
  /-- the dotted form on a unit that is not v4 -/
  | dottedForm
  /-- `LD` without its value -/
  | valueMissing
  /-- a value after a command that takes none -/
  | valueUnexpected
deriving DecidableEq, Repr

/-- The value `{e0, …}/p` of family `F`, or why it cannot be assembled (R56). -/
def assembleElements (F : Family) (es : List Nat) (p : Nat) : Except AsmError (AddressValue F) :=
  if es.length ≠ F.N then .error .elementCount
  else if es.any (fun x => 2 ^ F.W ≤ x) then .error .elementRange
  else if 2 ^ 8 ≤ p then .error .prefixRange
  else .ok ⟨Vector.ofFn fun i => BitVec.ofNat F.W (es.getD i 0), BitVec.ofNat 8 p⟩

/-- The payload a literal stands for (R56). A prefix length from `T + 1` to 255 can be assembled; it faults in the unit. -/
def assembleValue (F : Family) : Literal → Except AsmError (BitVec F.dataW)
  | .hex n => if n < 2 ^ F.dataW then .ok (BitVec.ofNat F.dataW n) else .error .hexRange
  | .elements es p => (assembleElements F es p).map AddressValue.pack
  | .dotted es p => if F = .v4 then (assembleElements F es p).map AddressValue.pack else .error .dottedForm

/-- The command takes a value on its line: `LD` and no other (R50, R56). -/
def Instr.takesValue : Instr → Bool
  | .ld _ => true
  | .readOut _ | .mov _ _ | .not _ _ | .and _ _ _ | .or _ _ _ | .xor _ _ _ | .mask _ _ | .net _ _ | .bcast _ _
  | .rdst => false

/-- The command of a line (R56). The payload of a command other than `LD` is free (R50); here it is 0 (log 12). -/
def assemble (F : Family) (l : Line) : Except AsmError (Command F) :=
  match Instr.takesValue l.instr, l.value with
  | true, none => .error .valueMissing
  | true, some v => (assembleValue F v).map fun w => ⟨encode l.instr, w⟩
  | false, none => .ok ⟨encode l.instr, 0⟩
  | false, some _ => .error .valueUnexpected

/-- The host's program from its source lines (R104 in `70_reset_and_hazards.md`): one command per line, in order. -/
def assembleProgram (F : Family) : List Line → Except AsmError (List (Command F))
  | [] => .ok []
  | l :: ls => do
    let c ← assemble F l
    let cs ← assembleProgram F ls
    return c :: cs

end Sys2Proof.Machine
end

