-- ==== Sys2Proof/Safety.lean ====
section
/-! DEFINITION. What the statements call a safe state, and the shapes of a command's effect they are written in. -/

namespace Sys2Proof

/-- The destination register of a command, if it has one (`spec/10_state.md` R20). -/
def Instr.dest : Instr → Option RegNum
  | .ld rd | .mov rd _ | .not rd _ | .and rd _ _ | .or rd _ _ | .xor rd _ _ | .mask rd _ | .net rd _ | .bcast rd _ =>
    some rd
  | .readOut _ | .rdst => none

/-- The word `w`, and no other, is the command word of `i`. -/
abbrev IsWordOf (i : Instr) (w : BitVec 16) : Prop := ∀ cmd, decode cmd = .ok i ↔ cmd = w

/-- Among the words with opcode `op`, exactly those with bad fields are illegal. -/
abbrev IllegalIff (op : BitVec 4) (bad : Fields → Prop) : Prop :=
  ∀ cmd, (fieldsOf cmd).op = op → ((∃ e, decode cmd = .error e) ↔ bad (fieldsOf cmd))

end Sys2Proof

namespace Sys2Proof.Machine

variable {F : Family}

/-- Register invariant (`spec/10_state.md` R19): every register's prefix length is at most `T`. -/
abbrev UnitState.PrefixesValid (u : UnitState F) : Prop := ∀ r : RegNum, (u.read r).Valid

/-- No response carries code 3 (`spec/30_encoding.md` R52). -/
abbrev Port.CodesDefined (p : Port F) : Prop := ∀ x ∈ p.responses, x.err ≠ 3

/-- The machine's invariant: R19, and no response carries code 3. -/
abbrev State.Inv (s : State) : Prop := s.unit.PrefixesValid ∧ s.port.CodesDefined

/-- Each flag is set exactly when some response given carries its fault's code (`spec/10_state.md` R22, `spec/30_encoding.md`
R52). -/
abbrev State.FlagsTellResponses (s : State) : Prop :=
  (s.unit.STATUS.ill = true ↔ ∃ x ∈ s.port.responses, x.err = 1) ∧
    (s.unit.STATUS.ipl = true ↔ ∃ x ∈ s.port.responses, x.err = 2)

/-- Frame of the unit for a command that writes one register: the other registers and STATUS are unchanged
(`spec/10_state.md` R20). -/
abbrev UnitState.SameBut (u u' : UnitState F) (rd : RegNum) : Prop :=
  (∀ r, r ≠ rd → u'.read r = u.read r) ∧ u'.STATUS = u.STATUS

/-- Frame of the port: the command gave the one response `(err, rdata)` and touched nothing else of the port. -/
abbrev Port.Answered (p p' : Port F) (err : BitVec 2) (rdata : BitVec F.dataW) : Prop :=
  p'.wdata = p.wdata ∧ p'.pending = p.pending ∧ p'.responses = p.responses ++ [⟨err, rdata⟩]

end Sys2Proof.Machine
end

