-- ==== Sys2Proof/Certificates/Slice0/Obligations.lean ====
section
/-! DEFINITION. The statements for the provers, from the numbered rules of `spec/`. A state is written `⟨F, u, p⟩`:
the family, the unit's state and the port. -/

open Sys2Proof Sys2Proof.Machine

/-! ### Words -/

/-- Command words of `spec/95_test_vectors.md` section 2.1 decode to the commands it gives, illegal ones to none. -/
def Obligations.DecodesTheSpecsWords : Prop :=
  decode 0x1400 = .ok (.ld 1) ∧ decode 0x2300 = .ok (.readOut 3) ∧ decode 0x3300 = .ok (.mov 0 3) ∧
  decode 0x4900 = .ok (.not 2 1) ∧ decode 0x5840 = .ok (.and 2 0 1) ∧ decode 0x6C80 = .ok (.or 3 0 2) ∧
  decode 0x7840 = .ok (.xor 2 0 1) ∧ decode 0x8400 = .ok (.mask 1 0) ∧ decode 0x9800 = .ok (.net 2 0) ∧
  decode 0xAC00 = .ok (.bcast 3 0) ∧ decode 0xB000 = .ok .rdst ∧
  (decode 0x0000).toOption = none ∧ (decode 0x1020).toOption = none ∧ (decode 0x2140).toOption = none ∧
  (decode 0xAC3F).toOption = none ∧ (decode 0xB400).toOption = none

/-- R54: the encoder is the inverse of the decoder on legal commands, and no two words are one command. -/
def Obligations.DecodeIsTheInverseOfEncode : Prop :=
  ∀ (cmd : BitVec 16) (i : Instr), decode cmd = .ok i ↔ cmd = encode i

/-- R45: a word is legal when a row's match and mask select it, and then that row is its command's and no other. -/
def Obligations.MatchAndMaskSelectTheCommand : Prop :=
  ∀ cmd : BitVec 16,
    ((∃ i, decode cmd = .ok i) ↔ ∃ row ∈ opcodeMap, row.selects cmd = true) ∧
    ∀ i, decode cmd = .ok i → ∀ row ∈ opcodeMap, (row.selects cmd = true ↔ row.mnemonic = i.mnemonic)

/-- R85: a command answers with code 1 exactly when its word has a bit of `zero` set, a reserved opcode, or an unused
register field that is not 0. -/
def Obligations.IllegalCommandExactlyWhenTheWordIsIllegal : Prop :=
  ∀ (F : Family) (u : UnitState F) (p : Port F) (c : Command F) (rest : List (Event F)),
    (¬ (fieldsOf c.cmd).ZeroClear ∨ (fieldsOf c.cmd).op ∈ [0x0#4, 0xC#4, 0xD#4, 0xE#4, 0xF#4] ∨
        ¬ (fieldsOf c.cmd).UnusedClear) ↔
      ∃ u' p', step ⟨F, u, { p with pending := .command c :: rest }⟩ = .next ⟨F, u', p'⟩ ∧
        p'.responses = p.responses ++ [⟨1, 0⟩]

/-- R48: exactly 281 words are legal, with the count of each opcode, none with a reserved opcode; every other word
answers with IllegalCommand. -/
def Obligations.ExactlyTheLegalWords : Prop :=
  ∃ l : List (BitVec 16), l.Nodup ∧ l.length = 281 ∧ (∀ cmd, cmd ∈ l ↔ ∃ i, decode cmd = .ok i) ∧
    (∀ row ∈ [(0x1#4, 4), (0x2#4, 4), (0x3#4, 16), (0x4#4, 16), (0x5#4, 64), (0x6#4, 64), (0x7#4, 64), (0x8#4, 16),
        (0x9#4, 16), (0xA#4, 16), (0xB#4, 1)], l.countP (fun cmd => cmd.extractLsb' 12 4 == row.1) = row.2) ∧
    (∀ cmd ∈ l, cmd.extractLsb' 12 4 ∉ [0x0#4, 0xC#4, 0xD#4, 0xE#4, 0xF#4]) ∧ 0x0000#16 ∉ l ∧ 0xFFFF#16 ∉ l ∧
    ∀ (F : Family) (u : UnitState F) (p : Port F) (c : Command F) (rest : List (Event F)), c.cmd ∉ l →
      ∃ u' p', step ⟨F, u, { p with pending := .command c :: rest }⟩ = .next ⟨F, u', p'⟩ ∧
        p'.responses = p.responses ++ [⟨1, 0⟩]

/-! ### Steps -/

/-- R55: a step with a legal command pending is `exec` of the decoded command, with the payload on the data lines and
the command gone from the host's list. -/
def Obligations.StepRunsTheDecodedCommand : Prop :=
  ∀ (F : Family) (u : UnitState F) (p : Port F) (c : Command F) (rest : List (Event F)) (i : Instr),
    decode c.cmd = .ok i → p.pending = .command c :: rest →
      step ⟨F, u, p⟩ = exec i ⟨F, u, { p with wdata := c.wdata, pending := rest }⟩

/-- R6: with nothing presented the unit does nothing (that a step is then the identity is the model's reading, log 5). -/
def Obligations.IdleUnitHoldsItsState : Prop :=
  ∀ s : State, s.port.pending = [] → step s = .next s

/-- R27: the reset values, on both families. -/
def Obligations.ResetValues : Prop :=
  (∀ (F : Family) (r : RegNum), (∀ i : Fin F.N, ((State.resetOf F).unit.read r).e[i] = 0) ∧
      ((State.resetOf F).unit.read r).plen = 0 ∧ ((State.resetOf F).unit.read r).pack = 0) ∧
  ∀ F : Family, (State.resetOf F).unit.STATUS.word = 0 ∧ (State.resetOf F).unit.STATUS = ⟨false, false⟩

/-- R96: a reset event puts every element, every prefix length and STATUS to 0, from any state, with no response; a
freshly built unit is in that state. -/
def Obligations.ResetEventRestoresTheResetState : Prop :=
  ∀ (F : Family) (u : UnitState F) (p : Port F) (rest : List (Event F)),
    ∃ u' p', step ⟨F, u, { p with pending := .reset :: rest }⟩ = .next ⟨F, u', p'⟩ ∧
      (∀ r, (u'.read r).plen = 0 ∧ ∀ i : Fin F.N, (u'.read r).e[i] = 0) ∧ u'.STATUS.word = 0 ∧
      u' = (State.resetOf F).unit ∧ p'.responses = p.responses ∧ p'.pending = rest

/-- R97: but for a reset, a step clears no flag and changes no register but a command's own destination; no step, a
reset among them, changes the family. -/
def Obligations.OnlyResetClearsAFlag : Prop :=
  ∀ (F : Family) (u : UnitState F) (p : Port F) (t : State), step ⟨F, u, p⟩ = .next t →
    ∃ u' p', t = ⟨F, u', p'⟩ ∧
      ((∀ rest, p.pending ≠ .reset :: rest) →
        (u.STATUS.ill = true → u'.STATUS.ill = true) ∧ (u.STATUS.ipl = true → u'.STATUS.ipl = true) ∧
        ∀ r, u'.read r ≠ u.read r →
          ∃ c rest i, p.pending = .command c :: rest ∧ decode c.cmd = .ok i ∧ i.dest = some r)

/-- R16: no step changes the family. -/
def Obligations.FamilyIsFixedForLife : Prop :=
  ∀ (n : Nat) (s t : State), Host.Core.run core n s = .next t → t.family = s.family

/-- Every state whose registers hold valid prefix lengths has a next state (R55 with R19). -/
def Obligations.EveryStepAnswersANextState : Prop :=
  ∀ s : State, s.Inv → ∃ t, step s = .next t ∧ t.Inv

/-- The invariant holds at reset, on both families (R19, R27); State.reset is the v4 one (that it is v4 is the model's
choice, log 1). -/
def Obligations.InvariantHoldsAtReset : Prop :=
  (∀ F : Family, (State.resetOf F).Inv) ∧ State.reset.Inv ∧ State.reset = State.resetOf .v4

/-- R19: `A[r].plen ≤ T` holds after reset and every step keeps it; every command but LD copies the prefix length of a
register. (`Inv` also says that no response carries code 3, R52.) -/
def Obligations.StepKeepsTheRegisterInvariant : Prop :=
  (∀ F : Family, (State.resetOf F).Inv) ∧
  (∀ s t : State, s.Inv → step s = .next t → t.Inv) ∧
  ∀ (i : Instr) (F : Family) (u : UnitState F) (p : Port F) (u' : UnitState F) (p' : Port F),
    (∀ rd, i ≠ .ld rd) → exec i ⟨F, u, p⟩ = .next ⟨F, u', p'⟩ →
      ∀ r, ∃ r', (u'.read r).plen = (u.read r').plen

/-- R103: a finite list of commands is executed to its end, each command with its one response. -/
def Obligations.EveryCommandGetsItsResponse : Prop :=
  ∀ (F : Family) (cs : List (Command F)) (u : UnitState F) (p : Port F), State.Inv ⟨F, u, p⟩ →
    p.pending = cs.map .command →
      ∃ u' p' rs, Host.Core.run core cs.length (State.mk F u p) = .next (State.mk F u' p') ∧
        p'.pending = [] ∧ p'.responses = p.responses ++ rs ∧ rs.length = cs.length

/-- R38: a command sees no effect of a later one: what the host will do afterwards changes neither the unit's state nor
the responses of the commands before it. -/
def Obligations.LaterEventsHaveNoEffectOnEarlierCommands : Prop :=
  ∀ (F : Family) (cs : List (Command F)) (later : List (Event F)) (u u' : UnitState F) (p p' : Port F),
    Host.Core.run core cs.length (State.mk F u { p with pending := cs.map .command }) = .next (State.mk F u' p') →
      Host.Core.run core cs.length (State.mk F u { p with pending := cs.map .command ++ later }) =
        .next (State.mk F u' { p' with pending := later })

/-! ### Faults, flags and responses -/

/-- R90: what a fault does, for both faults. -/
def Obligations.FaultWritesOnlyItsFlag : Prop :=
  (∀ (F : Family) (u : UnitState F) (p : Port F) (c : Command F) (rest : List (Event F)),
    (∃ e, decode c.cmd = .error e) →
      ∃ u' p', step ⟨F, u, { p with pending := .command c :: rest }⟩ = .next ⟨F, u', p'⟩ ∧
        u'.A = u.A ∧ u'.STATUS.ill = true ∧ u'.STATUS.ipl = u.STATUS.ipl ∧
        p'.responses = p.responses ++ [⟨1, 0⟩] ∧ p'.pending = rest) ∧
  ∀ (F : Family) (u : UnitState F) (p : Port F) (c : Command F) (rest : List (Event F)) (rd : RegNum),
    decode c.cmd = .ok (.ld rd) → F.T < (c.wdata.extractLsb' 0 8).toNat →
      ∃ u' p', step ⟨F, u, { p with pending := .command c :: rest }⟩ = .next ⟨F, u', p'⟩ ∧
        u'.A = u.A ∧ u'.STATUS.ipl = true ∧ u'.STATUS.ill = u.STATUS.ill ∧
        p'.responses = p.responses ++ [⟨2, 0⟩] ∧ p'.pending = rest

/-- R91: the command after a faulting command executes as it would have without it; only RDST can tell. -/
def Obligations.FaultLeavesTheNextCommandUndisturbed : Prop :=
  ∀ (F : Family) (u : UnitState F) (p : Port F) (bad c : Command F) (rest : List (Event F)), u.PrefixesValid →
    ((∃ e, decode bad.cmd = .error e) ∨
      (∃ rd, decode bad.cmd = .ok (.ld rd)) ∧ F.T < (bad.wdata.extractLsb' 0 8).toNat) →
    ∃ u₁ p₁ u₂ p₂ x f y, step ⟨F, u, { p with pending := .command c :: rest }⟩ = .next ⟨F, u₁, p₁⟩ ∧
      Host.Core.run core 2 (State.mk F u { p with pending := .command bad :: .command c :: rest }) =
        .next (State.mk F u₂ p₂) ∧
      u₁.A = u₂.A ∧ p₂.pending = p₁.pending ∧ p₁.responses = p.responses ++ [x] ∧
      p₂.responses = p.responses ++ [f, y] ∧ (decode c.cmd ≠ .ok .rdst → y = x)

/-- R86: a command answers with code 2 exactly when it is a legal LD whose payload's prefix length exceeds `T`. -/
def Obligations.InvalidPrefixLengthExactlyWhenLdIsOutOfRange : Prop :=
  ∀ (F : Family) (u : UnitState F) (p : Port F) (c : Command F) (rest : List (Event F)),
    ((∃ rd, decode c.cmd = .ok (.ld rd)) ∧ F.T < (c.wdata.extractLsb' 0 8).toNat) ↔
      ∃ u' p', step ⟨F, u, { p with pending := .command c :: rest }⟩ = .next ⟨F, u', p'⟩ ∧
        p'.responses = p.responses ++ [⟨2, 0⟩]

/-- R52, R53: one response per command; code 1 for an illegal word and code 2 for an LD out of range, with read data 0;
else code 0 with the read data R53 gives; code 3 never. -/
def Obligations.OneResponsePerCommand : Prop :=
  ∀ (F : Family) (u : UnitState F) (p : Port F) (c : Command F) (rest : List (Event F)) (t : State),
    step ⟨F, u, { p with pending := .command c :: rest }⟩ = .next t →
      ∃ u' p' resp, t = ⟨F, u', p'⟩ ∧ p'.responses = p.responses ++ [resp] ∧
        ((∃ e, decode c.cmd = .error e) ∧ resp = ⟨1, 0⟩ ∨
          (∃ rd, decode c.cmd = .ok (.ld rd)) ∧ F.T < (c.wdata.extractLsb' 0 8).toNat ∧ resp = ⟨2, 0⟩ ∨
          ∃ i, decode c.cmd = .ok i ∧ (∀ rd, i = .ld rd → (c.wdata.extractLsb' 0 8).toNat ≤ F.T) ∧ resp.err = 0 ∧
            (∀ ra, i = .readOut ra → resp.rdata = (u.read ra).pack) ∧
            (i = .rdst → resp.rdata = u.STATUS.word.setWidth F.dataW ∧ u' = u) ∧
            ((∀ ra, i ≠ .readOut ra) → i ≠ .rdst → resp.rdata = 0))

/-- R22: STATUS as 8 bits: bit 0 `ILL`, bit 1 `IPL`, the others 0; its values are 0 to 3. -/
def Obligations.StatusWordIsItsTwoFlags : Prop :=
  ∀ st : Status, st.word.getLsbD 0 = st.ill ∧ st.word.getLsbD 1 = st.ipl ∧ st.word.extractLsb' 2 6 = 0 ∧
    st.word.toNat < 4

/-- R22: over a run of commands from clear flags, `ILL` is set exactly when some command answered with code 1, `IPL`
exactly when some command answered with code 2. -/
def Obligations.StatusRecordsTheFaultsOfARun : Prop :=
  ∀ (F : Family) (cs : List (Command F)) (u u' : UnitState F) (p p' : Port F),
    u.STATUS.word = 0 → p.responses = [] → p.pending = cs.map .command →
    Host.Core.run core cs.length (State.mk F u p) = .next (State.mk F u' p') →
      (u'.STATUS.ill = true ↔ ∃ x ∈ p'.responses, x.err = 1) ∧ (u'.STATUS.ipl = true ↔ ∃ x ∈ p'.responses, x.err = 2)

/-- R22, R52, as an invariant: each flag is set exactly when a response carries its fault's code. It holds at reset, and
every step but a reset keeps it, from any state that meets it. (A reset clears the flags and keeps the host's list of
responses: the model's choice, log 7.) -/
def Obligations.StepKeepsFlagsAndResponsesInStep : Prop :=
  (∀ F : Family, (State.resetOf F).FlagsTellResponses) ∧
  ∀ s t : State, s.FlagsTellResponses → (∀ rest, s.port.pending ≠ .reset :: rest) → step s = .next t →
    t.FlagsTellResponses

/-- R23: a command does the same whatever the flags hold, but that RDST returns them. -/
def Obligations.NoResultDependsOnAFlag : Prop :=
  ∀ (i : Instr) (F : Family) (u : UnitState F) (p : Port F) (st : Status),
    (∃ r, exec i ⟨F, u, p⟩ = .refused r ∧ exec i ⟨F, { u with STATUS := st }, p⟩ = .refused r) ∨
    ∃ u₁ p₁ u₂ p₂, exec i ⟨F, u, p⟩ = .next ⟨F, u₁, p₁⟩ ∧
      exec i ⟨F, { u with STATUS := st }, p⟩ = .next ⟨F, u₂, p₂⟩ ∧ u₁.A = u₂.A ∧ (i ≠ .rdst → p₁ = p₂)

/-- R50: LD reads the payload by `unpack`, every bit of it; every other command does the same whatever the payload. -/
def Obligations.PayloadIsReadByLdOnly : Prop :=
  (∀ (F : Family) (v : BitVec F.dataW),
    (∀ i : Fin F.N, (unpack v).e[i] = v.extractLsb' (8 + (F.N - 1 - i) * F.W) F.W) ∧
    (unpack v).plen = v.extractLsb' 0 8 ∧ ∀ v' : BitVec F.dataW, unpack v = unpack v' → v = v') ∧
  (∀ (F : Family) (u : UnitState F) (p : Port F) (rd : RegNum), (p.wdata.extractLsb' 0 8).toNat ≤ F.T →
    ∃ u' p', exec (.ld rd) ⟨F, u, p⟩ = .next ⟨F, u', p'⟩ ∧ u'.read rd = unpack p.wdata) ∧
  ∀ (i : Instr) (F : Family) (u : UnitState F) (p : Port F) (w : BitVec F.dataW), (∀ rd, i ≠ .ld rd) →
    (∃ r, exec i ⟨F, u, p⟩ = .refused r ∧ exec i ⟨F, u, { p with wdata := w }⟩ = .refused r) ∨
    ∃ u' p₁ p₂, exec i ⟨F, u, p⟩ = .next ⟨F, u', p₁⟩ ∧
      exec i ⟨F, u, { p with wdata := w }⟩ = .next ⟨F, u', p₂⟩ ∧ p₁.responses = p₂.responses

/-- R20: a command writes no register but its destination, no flag but the one of a fault it raises, and nothing of the
port but its one response. -/
def Obligations.CommandFrame : Prop :=
  ∀ (i : Instr) (F : Family) (u : UnitState F) (p : Port F) (t : State), exec i ⟨F, u, p⟩ = .next t →
    ∃ u' p' resp, t = ⟨F, u', p'⟩ ∧ (∀ r, i.dest ≠ some r → u'.read r = u.read r) ∧
      p'.wdata = p.wdata ∧ p'.pending = p.pending ∧ p'.responses = p.responses ++ [resp] ∧
      (resp.err = 0 ∧ u'.STATUS = u.STATUS ∨
        resp = ⟨2, 0⟩ ∧ (∃ rd, i = .ld rd) ∧ u'.A = u.A ∧ u'.STATUS = { u.STATUS with ipl := true })

/-! ### The commands: word, illegal words of the opcode, effect -/

/-- R59: `LD rd`. -/
def Obligations.LdConstructsTheValueOrFaults : Prop :=
  ∀ rd : RegNum,
    IsWordOf (.ld rd) (0x1000#16 ||| BitVec.ofNat 16 rd <<< 10) ∧
    IllegalIff 0x1 (fun f => f.ra ≠ 0 ∨ f.rb ≠ 0 ∨ f.zero ≠ 0) ∧
    ∀ (F : Family) (u : UnitState F) (p : Port F),
      ((p.wdata.extractLsb' 0 8).toNat ≤ F.T →
        ∃ u' p', exec (.ld rd) ⟨F, u, p⟩ = .next ⟨F, u', p'⟩ ∧
          (∀ i : Fin F.N, (u'.read rd).e[i] = p.wdata.extractLsb' (8 + (F.N - 1 - i) * F.W) F.W) ∧
          (u'.read rd).plen = p.wdata.extractLsb' 0 8 ∧ (u'.read rd).pack = p.wdata ∧
          u.SameBut u' rd ∧ p.Answered p' 0 0) ∧
      (F.T < (p.wdata.extractLsb' 0 8).toNat →
        ∃ u' p', exec (.ld rd) ⟨F, u, p⟩ = .next ⟨F, u', p'⟩ ∧ u'.A = u.A ∧
          u'.STATUS = { u.STATUS with ipl := true } ∧ p.Answered p' 2 0)

/-- R60: `RD ra`. -/
def Obligations.RdReturnsTheWholeValue : Prop :=
  ∀ ra : RegNum,
    IsWordOf (.readOut ra) (0x2000#16 ||| BitVec.ofNat 16 ra <<< 8) ∧
    IllegalIff 0x2 (fun f => f.rd ≠ 0 ∨ f.rb ≠ 0 ∨ f.zero ≠ 0) ∧
    ∀ (F : Family) (u : UnitState F) (p : Port F), ∃ d p', exec (.readOut ra) ⟨F, u, p⟩ = .next ⟨F, u, p'⟩ ∧
      p.Answered p' 0 d ∧ d.extractLsb' 8 F.T = (u.read ra).flat ∧ d.extractLsb' 0 8 = (u.read ra).plen

/-- R61: `MOV rd, ra`. -/
def Obligations.MovCopiesTheWholeValue : Prop :=
  ∀ rd ra : RegNum,
    IsWordOf (.mov rd ra) (0x3000#16 ||| BitVec.ofNat 16 rd <<< 10 ||| BitVec.ofNat 16 ra <<< 8) ∧
    IllegalIff 0x3 (fun f => f.rb ≠ 0 ∨ f.zero ≠ 0) ∧
    ∀ (F : Family) (u : UnitState F) (p : Port F), ∃ u' p', exec (.mov rd ra) ⟨F, u, p⟩ = .next ⟨F, u', p'⟩ ∧
      u'.read rd = u.read ra ∧ (rd = ra → u' = u) ∧ u.SameBut u' rd ∧ p.Answered p' 0 0

/-- R64: `NOT rd, ra`. -/
def Obligations.NotComplementsEveryElement : Prop :=
  ∀ rd ra : RegNum,
    IsWordOf (.not rd ra) (0x4000#16 ||| BitVec.ofNat 16 rd <<< 10 ||| BitVec.ofNat 16 ra <<< 8) ∧
    IllegalIff 0x4 (fun f => f.rb ≠ 0 ∨ f.zero ≠ 0) ∧
    ∀ (F : Family) (u : UnitState F) (p : Port F), ∃ u' p', exec (.not rd ra) ⟨F, u, p⟩ = .next ⟨F, u', p'⟩ ∧
      (∀ i : Fin F.N, ((u'.read rd).e[i]).toNat = 2 ^ F.W - 1 - ((u.read ra).e[i]).toNat) ∧
      (u'.read rd).plen = (u.read ra).plen ∧ u.SameBut u' rd ∧ p.Answered p' 0 0

/-- R66: `AND rd, ra, rb`. -/
def Obligations.AndCombinesEveryElement : Prop :=
  ∀ rd ra rb : RegNum,
    IsWordOf (.and rd ra rb)
      (0x5000#16 ||| BitVec.ofNat 16 rd <<< 10 ||| BitVec.ofNat 16 ra <<< 8 ||| BitVec.ofNat 16 rb <<< 6) ∧
    IllegalIff 0x5 (fun f => f.zero ≠ 0) ∧
    ∀ (F : Family) (u : UnitState F) (p : Port F), ∃ u' p', exec (.and rd ra rb) ⟨F, u, p⟩ = .next ⟨F, u', p'⟩ ∧
      (∀ i : Fin F.N, (u'.read rd).e[i] = (u.read ra).e[i] &&& (u.read rb).e[i]) ∧
      (u'.read rd).plen = (u.read ra).plen ∧ u.SameBut u' rd ∧ p.Answered p' 0 0

/-- R67: `OR rd, ra, rb`. -/
def Obligations.OrCombinesEveryElement : Prop :=
  ∀ rd ra rb : RegNum,
    IsWordOf (.or rd ra rb)
      (0x6000#16 ||| BitVec.ofNat 16 rd <<< 10 ||| BitVec.ofNat 16 ra <<< 8 ||| BitVec.ofNat 16 rb <<< 6) ∧
    IllegalIff 0x6 (fun f => f.zero ≠ 0) ∧
    ∀ (F : Family) (u : UnitState F) (p : Port F), ∃ u' p', exec (.or rd ra rb) ⟨F, u, p⟩ = .next ⟨F, u', p'⟩ ∧
      (∀ i : Fin F.N, (u'.read rd).e[i] = (u.read ra).e[i] ||| (u.read rb).e[i]) ∧
      (u'.read rd).plen = (u.read ra).plen ∧ u.SameBut u' rd ∧ p.Answered p' 0 0

/-- R68: `XOR rd, ra, rb`. -/
def Obligations.XorCombinesEveryElement : Prop :=
  ∀ rd ra rb : RegNum,
    IsWordOf (.xor rd ra rb)
      (0x7000#16 ||| BitVec.ofNat 16 rd <<< 10 ||| BitVec.ofNat 16 ra <<< 8 ||| BitVec.ofNat 16 rb <<< 6) ∧
    IllegalIff 0x7 (fun f => f.zero ≠ 0) ∧
    ∀ (F : Family) (u : UnitState F) (p : Port F), ∃ u' p', exec (.xor rd ra rb) ⟨F, u, p⟩ = .next ⟨F, u', p'⟩ ∧
      (∀ i : Fin F.N, (u'.read rd).e[i] = (u.read ra).e[i] ^^^ (u.read rb).e[i]) ∧
      (u'.read rd).plen = (u.read ra).plen ∧ u.SameBut u' rd ∧ p.Answered p' 0 0

/-- R75, R71: `MASK rd, ra`; the premise is R19's for the source register. -/
def Obligations.MaskWritesTheNetmask : Prop :=
  ∀ rd ra : RegNum,
    IsWordOf (.mask rd ra) (0x8000#16 ||| BitVec.ofNat 16 rd <<< 10 ||| BitVec.ofNat 16 ra <<< 8) ∧
    IllegalIff 0x8 (fun f => f.rb ≠ 0 ∨ f.zero ≠ 0) ∧
    ∀ (F : Family) (u : UnitState F) (p : Port F), (u.read ra).Valid →
      ∃ u' p' m, exec (.mask rd ra) ⟨F, u, p⟩ = .next ⟨F, u', p'⟩ ∧ (u.read ra).netmaskF = some m ∧ u'.read rd = m ∧
        (∀ j < F.T, (u'.read rd).leadingBit j = decide (j < (u.read ra).plen.toNat)) ∧
        (u'.read rd).plen = (u.read ra).plen ∧ u.SameBut u' rd ∧ p.Answered p' 0 0

/-- R78: `NET rd, ra`; the premise is R19's for the source register. -/
def Obligations.NetClearsTheHostPortion : Prop :=
  ∀ rd ra : RegNum,
    IsWordOf (.net rd ra) (0x9000#16 ||| BitVec.ofNat 16 rd <<< 10 ||| BitVec.ofNat 16 ra <<< 8) ∧
    IllegalIff 0x9 (fun f => f.rb ≠ 0 ∨ f.zero ≠ 0) ∧
    ∀ (F : Family) (u : UnitState F) (p : Port F), (u.read ra).Valid →
      ∃ u' p' m, exec (.net rd ra) ⟨F, u, p⟩ = .next ⟨F, u', p'⟩ ∧ (u.read ra).netmaskF = some m ∧
        (∀ i : Fin F.N, (u'.read rd).e[i] = (u.read ra).e[i] &&& m.e[i]) ∧
        (∀ j < F.T, (u'.read rd).leadingBit j = ((u.read ra).leadingBit j && decide (j < (u.read ra).plen.toNat))) ∧
        (u'.read rd).plen = (u.read ra).plen ∧ u.SameBut u' rd ∧ p.Answered p' 0 0

/-- R80: `BCAST rd, ra`, on both families; the premise is R19's for the source register. -/
def Obligations.BcastSetsTheHostPortion : Prop :=
  ∀ rd ra : RegNum,
    IsWordOf (.bcast rd ra) (0xA000#16 ||| BitVec.ofNat 16 rd <<< 10 ||| BitVec.ofNat 16 ra <<< 8) ∧
    IllegalIff 0xA (fun f => f.rb ≠ 0 ∨ f.zero ≠ 0) ∧
    ∀ (F : Family) (u : UnitState F) (p : Port F), (u.read ra).Valid →
      ∃ u' p' m, exec (.bcast rd ra) ⟨F, u, p⟩ = .next ⟨F, u', p'⟩ ∧ (u.read ra).netmaskF = some m ∧
        (∀ i : Fin F.N, (u'.read rd).e[i] = (u.read ra).e[i] ||| ~~~m.e[i]) ∧
        (∀ j < F.T, (u'.read rd).leadingBit j = ((u.read ra).leadingBit j || !decide (j < (u.read ra).plen.toNat))) ∧
        (u'.read rd).plen = (u.read ra).plen ∧ u.SameBut u' rd ∧ p.Answered p' 0 0

/-- R82: `RDST`. -/
def Obligations.RdstReturnsTheStatus : Prop :=
  IsWordOf .rdst 0xB000 ∧
  IllegalIff 0xB (fun f => f.rd ≠ 0 ∨ f.ra ≠ 0 ∨ f.rb ≠ 0 ∨ f.zero ≠ 0) ∧
  (∀ (F : Family) (u : UnitState F) (p : Port F) (c : Command F) (rest : List (Event F)),
    (fieldsOf c.cmd).op = 0xB → c.cmd ≠ 0xB000 →
      ∃ u' p', step ⟨F, u, { p with pending := .command c :: rest }⟩ = .next ⟨F, u', p'⟩ ∧
        u'.STATUS.ill = true ∧ p'.responses = p.responses ++ [⟨1, 0⟩]) ∧
  ∀ (F : Family) (u : UnitState F) (p : Port F), ∃ d p', exec .rdst ⟨F, u, p⟩ = .next ⟨F, u, p'⟩ ∧
    p.Answered p' 0 d ∧ d.getLsbD 0 = u.STATUS.ill ∧ d.getLsbD 1 = u.STATUS.ipl ∧ ∀ j ≥ 2, d.getLsbD j = false

/-- R76 and `93_implementation_defined.md` U2: where the source's prefix length exceeds `T`, which no reachable state
has, the mask engine has no value and the model refuses (that it stops there by this name is the model's, log 6). -/
def Obligations.MaskEngineHasNoValueBeyondTheFamily : Prop :=
  ∀ (F : Family) (u : UnitState F) (p : Port F) (rd ra : RegNum), ¬ (u.read ra).Valid →
    ∀ i ∈ [Instr.mask rd ra, Instr.net rd ra, Instr.bcast rd ra], exec i ⟨F, u, p⟩ = .refused .prefixBeyondFamily

/-! ### The engine functions -/

/-- R62, R63, R65: each lane of a result comes from the same lane of the operands, and the whole is the one operation
on the `T`-bit address; the prefix length is the left operand's. -/
def Obligations.LanesAreTheFlatOperation : Prop :=
  ∀ (F : Family) (a b : AddressValue F),
    (∀ i : Fin F.N, a.notF.e[i] = ~~~a.e[i] ∧ (a.andF b).e[i] = a.e[i] &&& b.e[i] ∧
      (a.orF b).e[i] = a.e[i] ||| b.e[i] ∧ (a.xorF b).e[i] = a.e[i] ^^^ b.e[i]) ∧
    a.notF.flat = ~~~a.flat ∧ (a.andF b).flat = a.flat &&& b.flat ∧ (a.orF b).flat = a.flat ||| b.flat ∧
    (a.xorF b).flat = a.flat ^^^ b.flat ∧
    a.notF.plen = a.plen ∧ (a.andF b).plen = a.plen ∧ (a.orF b).plen = a.plen ∧ (a.xorF b).plen = a.plen

/-- R70 (a) to (f). -/
def Obligations.BitwiseLaws : Prop :=
  ∀ (F : Family) (a b c : AddressValue F),
    a.notF.notF = a ∧
    ((a.andF b).andF c = a.andF (b.andF c) ∧ (a.orF b).orF c = a.orF (b.orF c) ∧
      (a.xorF b).xorF c = a.xorF (b.xorF c)) ∧
    ((a.andF b).e = (b.andF a).e ∧ (a.orF b).e = (b.orF a).e ∧ (a.xorF b).e = (b.xorF a).e) ∧
    (a.andF a = a ∧ a.orF a = a ∧ (∀ i : Fin F.N, (a.xorF a).e[i] = 0) ∧ (a.xorF a).plen = a.plen) ∧
    ((a.andF b).notF = a.notF.orF b.notF ∧ (a.orF b).notF = a.notF.andF b.notF) ∧
    (∀ (a' b' : AddressValue F) (i : Fin F.N), a.e[i] = a'.e[i] → b.e[i] = b'.e[i] →
      a.notF.e[i] = a'.notF.e[i] ∧ (a.andF b).e[i] = (a'.andF b').e[i] ∧ (a.orF b).e[i] = (a'.orF b').e[i] ∧
      (a.xorF b).e[i] = (a'.xorF b').e[i]) ∧
    (a.Valid → a.notF.Valid ∧ (a.andF b).Valid ∧ (a.orF b).Valid ∧ (a.xorF b).Valid)

/-- R73: the closed form of the netmask, for the whole address and element by element. -/
def Obligations.NetmaskClosedForm : Prop :=
  ∀ (F : Family) (a : AddressValue F), a.Valid →
    ∃ m, a.netmaskF = some m ∧ m.flat = ones F.T <<< (F.T - a.plen.toNat) ∧
      (∀ j < F.T, m.leadingBit j = decide (j < a.plen.toNat)) ∧
      ∀ i : Fin F.N,
        (∀ s, s = (F.N - 1 - i) * F.W →
          m.e[i] = ones F.W <<< (if F.T - a.plen.toNat ≤ s then 0
            else if F.T - a.plen.toNat < s + F.W then F.T - a.plen.toNat - s else F.W)) ∧
        (i < a.plen.toNat / F.W → m.e[i] = ones F.W) ∧
        (a.plen.toNat / F.W < i → m.e[i] = 0) ∧
        (i = a.plen.toNat / F.W → a.plen.toNat % F.W = 0 → m.e[i] = 0) ∧
        (i = a.plen.toNat / F.W → a.plen.toNat % F.W ≠ 0 →
          (m.e[i]).toNat = (2 ^ F.W - 1) - (2 ^ (F.W - a.plen.toNat % F.W) - 1))

/-- R74 (a) to (i). -/
def Obligations.NetmaskProperties : Prop :=
  (∀ (F : Family) (a b : AddressValue F), a.plen = b.plen → a.netmaskF = b.netmaskF) ∧
  ∀ (F : Family) (a m : AddressValue F), a.netmaskF = some m →
    (a.plen.toNat = 0 → ∀ i : Fin F.N, m.e[i] = 0) ∧
    (a.plen.toNat = F.T → ∀ i : Fin F.N, m.e[i] = ones F.W) ∧
    (F.W ∣ a.plen.toNat → ∀ i : Fin F.N, m.e[i] = if i < a.plen.toNat / F.W then ones F.W else 0) ∧
    (a.plen.toNat = F.T - 1 → ∀ i : Fin F.N,
      (m.e[i]).toNat = if (i : Nat) = F.N - 1 then 2 ^ F.W - 2 else 2 ^ F.W - 1) ∧
    (a.plen.toNat = 1 → ∀ i : Fin F.N, (m.e[i]).toNat = if (i : Nat) = 0 then 2 ^ (F.W - 1) else 0) ∧
    (∀ j k, j < k → k < F.T → m.leadingBit k = true → m.leadingBit j = true) ∧
    m.plen = a.plen ∧ m.netmaskF = some m ∧
    (List.range F.T).countP (fun j => m.leadingBit j) = a.plen.toNat

/-- R77: the network function and its flat form. -/
def Obligations.NetworkKeepsTheLeadingBits : Prop :=
  ∀ (F : Family) (a : AddressValue F), a.Valid →
    ∃ n m, a.networkF = some n ∧ a.netmaskF = some m ∧ (∀ i : Fin F.N, n.e[i] = a.e[i] &&& m.e[i]) ∧
      n.plen = a.plen ∧ n.flat = a.flat &&& ones F.T <<< (F.T - a.plen.toNat) ∧
      ∀ j < F.T, n.leadingBit j = (a.leadingBit j && decide (j < a.plen.toNat))

/-- R79: the broadcast function and its flat form. -/
def Obligations.BroadcastSetsTheTrailingBits : Prop :=
  ∀ (F : Family) (a : AddressValue F), a.Valid →
    ∃ b m, a.broadcastF = some b ∧ a.netmaskF = some m ∧ (∀ i : Fin F.N, b.e[i] = a.e[i] ||| ~~~m.e[i]) ∧
      b.plen = a.plen ∧ b.flat = a.flat ||| (ones (F.T - a.plen.toNat)).setWidth F.T ∧
      ∀ j < F.T, b.leadingBit j = (a.leadingBit j || !decide (j < a.plen.toNat))

/-- R81 (a) to (g): the laws of the two derivations; (g) on the commands, with `m` a scratch register. -/
def Obligations.DerivationLaws : Prop :=
  (∀ (F : Family) (a : AddressValue F), a.Valid →
    ∃ m n b, a.netmaskF = some m ∧ a.networkF = some n ∧ a.broadcastF = some b ∧
      (∀ j < F.T, (m.leadingBit j = false → n.leadingBit j = false) ∧
        (m.leadingBit j = true → n.leadingBit j = a.leadingBit j)) ∧
      (∀ j < F.T, (m.leadingBit j = false → b.leadingBit j = true) ∧
        (m.leadingBit j = true → b.leadingBit j = a.leadingBit j)) ∧
      n.plen = a.plen ∧ b.plen = a.plen ∧
      n.flat.toNat ≤ a.flat.toNat ∧ a.flat.toNat ≤ b.flat.toNat ∧
      b.flat.toNat - n.flat.toNat = 2 ^ (F.T - a.plen.toNat) - 1 ∧
      (n.xorF b).e = m.notF.e ∧ b.networkF = some n ∧ n.broadcastF = some b) ∧
  ∀ (F : Family) (u : UnitState F) (p : Port F) (rd ra m : RegNum), m ≠ ra → (u.read ra).Valid →
    (∃ u₁ p₁ u₂ p₂ u' p', exec (.mask m ra) ⟨F, u, p⟩ = .next ⟨F, u₁, p₁⟩ ∧
      exec (.and rd ra m) ⟨F, u₁, p₁⟩ = .next ⟨F, u₂, p₂⟩ ∧
      exec (.net rd ra) ⟨F, u, p⟩ = .next ⟨F, u', p'⟩ ∧ u₂.read rd = u'.read rd) ∧
    ∃ u₁ p₁ u₂ p₂ u₃ p₃ u' p', exec (.mask m ra) ⟨F, u, p⟩ = .next ⟨F, u₁, p₁⟩ ∧
      exec (.not m m) ⟨F, u₁, p₁⟩ = .next ⟨F, u₂, p₂⟩ ∧
      exec (.or rd ra m) ⟨F, u₂, p₂⟩ = .next ⟨F, u₃, p₃⟩ ∧
      exec (.bcast rd ra) ⟨F, u, p⟩ = .next ⟨F, u', p'⟩ ∧ u₃.read rd = u'.read rd

/-! ### The data port and the assembler -/

/-- R32: the layout of an address value on the data port, with the rule's two examples; `pack` and `unpack` are each
other's inverse (R10). -/
def Obligations.PackLayout : Prop :=
  (∀ (F : Family) (a : AddressValue F), unpack a.pack = a ∧ a.pack.extractLsb' 0 8 = a.plen ∧
    ∀ i : Fin F.N, a.pack.extractLsb' (8 + (F.N - 1 - i) * F.W) F.W = a.e[i]) ∧
  (∀ (F : Family) (v : BitVec F.dataW), (unpack v).pack = v) ∧
  Family.v4.dataW = 40 ∧ Family.v6.dataW = 136 ∧
  (⟨#v[192, 168, 0, 101], 25⟩ : AddressValue .v4).pack = BitVec.ofNat _ 0xC0A8006519 ∧
  (⟨#v[0x2001, 0x0db8, 0xface, 0, 0, 0, 0, 0], 64⟩ : AddressValue .v6).pack =
    BitVec.ofNat _ 0x20010DB8FACE0000000000000000000040

/-- R105: the four RD commands and RDST change nothing of the unit in any state, and read every bit of it: two states
that give the same responses to all five are the same state. -/
def Obligations.ReadsShowTheWholeState : Prop :=
  ∀ F : Family,
    (∀ (u : UnitState F) (p : Port F), ∀ i ∈ [Instr.readOut 0, .readOut 1, .readOut 2, .readOut 3, .rdst],
      ∃ p', exec i ⟨F, u, p⟩ = .next ⟨F, u, p'⟩) ∧
    ∀ (u v : UnitState F) (p : Port F),
      (∀ i ∈ [Instr.readOut 0, .readOut 1, .readOut 2, .readOut 3, .rdst], ∃ u' v' p' q',
        exec i ⟨F, u, p⟩ = .next ⟨F, u', p'⟩ ∧ exec i ⟨F, v, p⟩ = .next ⟨F, v', q'⟩ ∧ p'.responses = q'.responses) →
      u = v

/-- R36: RD and RDST change no state, and repeating one returns the same data. -/
def Obligations.ReadingHasNoSideEffect : Prop :=
  ∀ (F : Family) (u : UnitState F) (p : Port F) (i : Instr), (∃ ra, i = .readOut ra) ∨ i = .rdst →
    ∃ p₁ p₂ d, exec i ⟨F, u, p⟩ = .next ⟨F, u, p₁⟩ ∧ exec i ⟨F, u, p₁⟩ = .next ⟨F, u, p₂⟩ ∧
      p₁.responses = p.responses ++ [⟨0, d⟩] ∧ p₂.responses = p.responses ++ [⟨0, d⟩, ⟨0, d⟩]

/-- R58: what a host uses in place of pseudo-instructions: RDST, RD and MOV of a register to itself change no state,
XOR of a register with itself clears its elements and keeps its prefix length, MASK then NOT gives the host mask. -/
def Obligations.CommandsInPlaceOfPseudoInstructions : Prop :=
  ∀ (F : Family) (u : UnitState F) (p : Port F) (r ra : RegNum),
    (∀ i ∈ [Instr.rdst, .readOut r, .mov r r], ∃ p', exec i ⟨F, u, p⟩ = .next ⟨F, u, p'⟩) ∧
    (∃ u' p', exec (.xor r r r) ⟨F, u, p⟩ = .next ⟨F, u', p'⟩ ∧ (u'.read r).flat = 0 ∧
      (u'.read r).plen = (u.read r).plen ∧ u.SameBut u' r) ∧
    ((u.read ra).Valid → ∃ u₁ p₁ u₂ p₂, exec (.mask r ra) ⟨F, u, p⟩ = .next ⟨F, u₁, p₁⟩ ∧
      exec (.not r r) ⟨F, u₁, p₁⟩ = .next ⟨F, u₂, p₂⟩ ∧
      ∀ j < F.T, (u₂.read r).leadingBit j = decide ((u.read ra).plen.toNat ≤ j))

/-- R56: an LD line with `N` fitting elements and a prefix length of 8 bits assembles to LD's word, and the unit then
loads just those numbers, or faults when the prefix length is above `T`. -/
def Obligations.AssembledLdLoadsItsLiteral : Prop :=
  ∀ (F : Family) (rd : RegNum) (es : List Nat) (n : Nat), es.length = F.N → (∀ x ∈ es, x < 2 ^ F.W) → n < 256 →
    ∃ c, assemble F ⟨.ld rd, some (.elements es n)⟩ = .ok c ∧ decode c.cmd = .ok (.ld rd) ∧
      ∀ (u : UnitState F) (p : Port F) (rest : List (Event F)), ∃ u' p',
        step ⟨F, u, { p with pending := .command c :: rest }⟩ = .next ⟨F, u', p'⟩ ∧
        (n ≤ F.T → (u'.read rd).e.toList.map BitVec.toNat = es ∧ (u'.read rd).plen.toNat = n ∧
          p'.responses = p.responses ++ [⟨0, 0⟩]) ∧
        (F.T < n → u'.A = u.A ∧ p'.responses = p.responses ++ [⟨2, 0⟩])

/-- R56, R87: a value whose element count is not `N`, whose element does not fit in `W` bits, or whose prefix length
does not fit in 8 bits cannot be assembled, in neither form; the dotted form is v4's alone and means the same there. -/
def Obligations.AssemblerRefusesWhatDoesNotFit : Prop :=
  (∀ (F : Family) (rd : RegNum) (es : List Nat) (n : Nat),
    (es.length ≠ F.N ∨ (∃ x ∈ es, 2 ^ F.W ≤ x) ∨ 256 ≤ n) →
      (∃ e, assemble F ⟨.ld rd, some (.elements es n)⟩ = .error e) ∧
      ∃ e, assemble F ⟨.ld rd, some (.dotted es n)⟩ = .error e) ∧
  (∀ (rd : RegNum) (es : List Nat) (n : Nat),
    assemble .v4 ⟨.ld rd, some (.dotted es n)⟩ = assemble .v4 ⟨.ld rd, some (.elements es n)⟩) ∧
  assemble .v4 ⟨.ld 0, some (.dotted [192, 168, 0, 101] 25)⟩ = .ok ⟨0x1000, BitVec.ofNat _ 0xC0A8006519⟩

/-- R58: one command word per source line, in order, and it is the word of the line's command; the hexadecimal form of
LD's value is the payload itself (R56). That a number of `2 ^ DATA_W` or more is refused is the model's inference from
"a `DATA_W`-bit hexadecimal number" (log 12, DEDUCED). -/
def Obligations.AssemblerEmitsOneWordPerLine : Prop :=
  (∀ (F : Family) (ls : List Line) (cs : List (Command F)), assembleProgram F ls = .ok cs →
    List.Forall₂ (fun l c => decode c.cmd = .ok l.instr) ls cs) ∧
  ∀ (F : Family) (rd : RegNum) (n : Nat),
    (n < 2 ^ F.dataW → ∃ c, assemble F ⟨.ld rd, some (.hex n)⟩ = .ok c ∧ c.cmd = encode (.ld rd) ∧ c.wdata.toNat = n) ∧
    (2 ^ F.dataW ≤ n → ∃ e, assemble F ⟨.ld rd, some (.hex n)⟩ = .error e)
end

