-- ==== Sys2Proof/Laws/State.lean ====
section
/-! SUPPORT. The small lemmas of the state's operations: one per field per update, so that no proof unfolds an update. -/

namespace Sys2Proof.Machine

variable {F : Family}

@[simp] theorem UnitState.read_write_self (u : UnitState F) (r : RegNum) (v : AddressValue F) :
    (u.write r v).read r = v := by
  simp [UnitState.read, UnitState.write]

@[simp] theorem UnitState.read_write_ne (u : UnitState F) {r r' : RegNum} (v : AddressValue F) (h : r' ≠ r) :
    (u.write r v).read r' = u.read r' := by
  simp [UnitState.read, UnitState.write, Vector.getElem_set_ne, Fin.val_ne_of_ne (Ne.symm h)]

theorem UnitState.read_write (u : UnitState F) (r r' : RegNum) (v : AddressValue F) :
    (u.write r v).read r' = if r' = r then v else u.read r' := by
  split
  · subst_vars; simp
  · rw [UnitState.read_write_ne _ _ (by assumption)]

@[simp] theorem UnitState.write_STATUS (u : UnitState F) (r : RegNum) (v : AddressValue F) :
    (u.write r v).STATUS = u.STATUS := rfl

@[simp] theorem UnitState.setFlag_A (u : UnitState F) (k : FaultKind) : (u.setFlag k).A = u.A := rfl

@[simp] theorem UnitState.setFlag_STATUS (u : UnitState F) (k : FaultKind) :
    (u.setFlag k).STATUS = u.STATUS.set k := rfl

@[simp] theorem UnitState.setFlag_read (u : UnitState F) (k : FaultKind) (r : RegNum) :
    (u.setFlag k).read r = u.read r := rfl

@[simp] theorem AddressValue.zero_e (F : Family) (i : Nat) (hi : i < F.N) : (AddressValue.zero F).e[i] = 0 := by
  simp [AddressValue.zero]

@[simp] theorem AddressValue.zero_plen (F : Family) : (AddressValue.zero F).plen = 0 := rfl

@[simp] theorem State.resetOf_family (F : Family) : (State.resetOf F).family = F := rfl

@[simp] theorem State.resetOf_unit (F : Family) : (State.resetOf F).unit = UnitState.reset F := rfl

@[simp] theorem State.resetOf_port (F : Family) : (State.resetOf F).port = Port.idle F := rfl

@[simp] theorem UnitState.reset_read (F : Family) (r : RegNum) :
    (UnitState.reset F).read r = AddressValue.zero F := by
  simp [UnitState.read, UnitState.reset]

@[simp] theorem UnitState.reset_STATUS (F : Family) : (UnitState.reset F).STATUS = .clear := rfl

/-- Writing back the value a register holds changes nothing. -/
@[simp] theorem UnitState.write_read (u : UnitState F) (r : RegNum) : u.write r (u.read r) = u := by
  simp [UnitState.write, UnitState.read]

/-- Two unit states are equal when every register and STATUS are. -/
theorem UnitState.ext_read {u v : UnitState F} (h : ∀ r, u.read r = v.read r) (hs : u.STATUS = v.STATUS) : u = v := by
  cases u with
  | mk A st =>
    cases v with
    | mk B st' =>
      cases hs
      congr
      ext i hi
      all_goals (have := h ⟨i, hi⟩; simp only [UnitState.read, Fin.getElem_fin] at this; rw [this])

@[simp] theorem Port.respond_wdata (p : Port F) (err : BitVec 2) (d : BitVec F.dataW) :
    (p.respond err d).wdata = p.wdata := rfl

@[simp] theorem Port.respond_pending (p : Port F) (err : BitVec 2) (d : BitVec F.dataW) :
    (p.respond err d).pending = p.pending := rfl

@[simp] theorem Port.respond_responses (p : Port F) (err : BitVec 2) (d : BitVec F.dataW) :
    (p.respond err d).responses = p.responses ++ [⟨err, d⟩] := rfl

@[simp] theorem State.complete_mk (u : UnitState F) (p : Port F) (rd : RegNum) (v : AddressValue F) :
    State.complete ⟨F, u, p⟩ rd v = ⟨F, u.write rd v, p.respond okCode 0⟩ := rfl

@[simp] theorem State.answer_mk (u : UnitState F) (p : Port F) (d : BitVec F.dataW) :
    State.answer ⟨F, u, p⟩ d = ⟨F, u, p.respond okCode d⟩ := rfl

@[simp] theorem State.raise_mk (u : UnitState F) (p : Port F) (k : FaultKind) :
    State.raise ⟨F, u, p⟩ k = ⟨F, u.setFlag k, p.respond k.code 0⟩ := rfl

@[simp] theorem State.completeWith_some (s : State) (rd : RegNum) (v : AddressValue s.family) :
    s.completeWith rd (some v) = .next (s.complete rd v) := rfl

@[simp] theorem State.completeWith_none (s : State) (rd : RegNum) :
    s.completeWith rd none = .refused .prefixBeyondFamily := rfl

@[simp] theorem State.applyReset_mk (u : UnitState F) (p : Port F) :
    State.applyReset ⟨F, u, p⟩ = ⟨F, UnitState.reset F, p⟩ := rfl

@[simp] theorem State.withPending_mk (u : UnitState F) (p : Port F) (rest : List (Event F)) :
    State.withPending ⟨F, u, p⟩ rest = ⟨F, u, { p with pending := rest }⟩ := rfl

@[simp] theorem State.present_mk (u : UnitState F) (p : Port F) (w : BitVec F.dataW) (rest : List (Event F)) :
    State.present ⟨F, u, p⟩ w rest = ⟨F, u, { p with wdata := w, pending := rest }⟩ := rfl

@[simp] theorem Status.set_ill (st : Status) : st.set .illegalCommand = ⟨true, st.ipl⟩ := rfl

@[simp] theorem Status.set_ipl (st : Status) : st.set .invalidPrefixLength = ⟨st.ill, true⟩ := rfl

end Sys2Proof.Machine
end

