-- ==== Sys2Proof/Laws/Operands.lean ====
section
/-! SUPPORT. What `flat`, `pack` and `unpack` give, bit by bit and element by element (`spec/00_scope.md` R10). -/

namespace Sys2Proof

theorem Family.W_pos (F : Family) : 0 < F.W := by cases F <;> decide

theorem Family.N_pos (F : Family) : 0 < F.N := by cases F <;> decide

end Sys2Proof

namespace Sys2Proof.Machine

variable {F : Family}

/-- Bit `j` of a concatenation on top of `acc`: element `j / w` from the end, its bit `j % w`. -/
theorem concat_fold_getLsbD {w n : Nat} (hw : 0 < w) (es : List (BitVec w)) (acc : BitVec n) (j : Nat) (hj : j < n) :
    (es.foldl (fun (acc : BitVec n) x => acc <<< w ||| x.setWidth n) acc).getLsbD j =
      if j / w < es.length then (es.reverse.getD (j / w) 0).getLsbD (j % w)
      else acc.getLsbD (j - w * es.length) := by
  induction es generalizing acc with
  | nil => simp
  | cons x xs ih =>
    have hdm := Nat.div_add_mod j w
    have hm := Nat.mod_lt j hw
    rw [List.foldl_cons, ih]
    by_cases h : j / w < xs.length
    · have h' : j / w < xs.length + 1 := by omega
      simp [h, h']
    · have hle : w * xs.length ≤ w * (j / w) := Nat.mul_le_mul_left w (by omega)
      rw [if_neg h]
      by_cases he : j / w = xs.length
      · have hsub : j - w * xs.length = j % w := by rw [← he]; omega
        have hlt : j % w < n := by omega
        simp [he, hsub, hm, hlt]
      · have hge : w * (xs.length + 1) ≤ w * (j / w) := Nat.mul_le_mul_left w (by omega)
        rw [Nat.mul_add, Nat.mul_one] at hge
        have h1 : ¬ j / w < xs.length + 1 := by omega
        have h2 : j - w * xs.length < n := by omega
        have h3 : ¬ j - w * xs.length < w := by omega
        have h4 : j - w * xs.length - w = j - w * (xs.length + 1) := by rw [Nat.mul_add]; omega
        simp [h1, h2, h3, h4, BitVec.getLsbD_of_ge x (j - w * xs.length) (by omega)]
        rw [BitVec.getLsbD_eq_getElem]

/-- Bit `j` of `flat(a)` is bit `j % W` of the element with `j / W` elements below it (R10). -/
theorem AddressValue.flat_getLsbD (a : AddressValue F) (j : Nat) (hj : j < F.T) :
    a.flat.getLsbD j = (a.e[F.N - 1 - j / F.W]'(by have := F.N_pos; generalize j / F.W = q; omega)).getLsbD (j % F.W) := by
  have hd : j / F.W < F.N := Nat.div_lt_of_lt_mul hj
  rw [AddressValue.flat, concat, concat_fold_getLsbD F.W_pos _ _ _ hj]
  have hl : a.e.toList.length = F.N := by simp
  rw [if_pos (by omega)]
  congr 1
  have hlt : F.N - 1 - j / F.W < F.N := by generalize j / F.W = q at *; omega
  rw [List.getD_eq_getElem?_getD, List.getElem?_reverse (by omega), hl]
  simp [hlt]

/-- Element `i` of an address is the field of `flat(a)` that R10 gives it. -/
theorem AddressValue.flat_element (a : AddressValue F) (i : Fin F.N) :
    a.flat.extractLsb' ((F.N - 1 - i) * F.W) F.W = a.e[i] := by
  have hw := F.W_pos
  apply BitVec.eq_of_getLsbD_eq
  intro b hb
  have hi := i.isLt
  have hlt : (F.N - 1 - i) * F.W + b < F.T := by
    have h1 : (F.N - 1 - i) * F.W + F.W ≤ F.N * F.W := by
      rw [← Nat.succ_mul]; exact Nat.mul_le_mul_right _ (by omega)
    rw [Family.T, Nat.mul_comm F.W]; omega
  have hdiv : ((F.N - 1 - i) * F.W + b) / F.W = F.N - 1 - i := by
    rw [Nat.mul_comm, Nat.mul_add_div hw, Nat.div_eq_of_lt hb, Nat.add_zero]
  have hmod : ((F.N - 1 - i) * F.W + b) % F.W = b := by
    rw [Nat.mul_comm, Nat.mul_add_mod, Nat.mod_eq_of_lt hb]
  rw [BitVec.getLsbD_extractLsb']
  simp only [hb, decide_true, Bool.true_and]
  rw [a.flat_getLsbD _ hlt]
  simp only [hdiv, hmod]
  congr 2
  have : F.N - 1 - (F.N - 1 - (i : Nat)) = i := by omega
  simp [this]

/-- Two values with the same `flat` have the same elements. -/
theorem AddressValue.e_eq_of_flat_eq {a b : AddressValue F} (h : a.flat = b.flat) : a.e = b.e := by
  ext i hi j hj
  have := a.flat_element ⟨i, hi⟩
  rw [h, b.flat_element ⟨i, hi⟩] at this
  simp only [Fin.getElem_fin] at this
  rw [this]

theorem AddressValue.ext_flat {a b : AddressValue F} (h : a.flat = b.flat) (hp : a.plen = b.plen) : a = b := by
  cases a; cases b
  simp only [AddressValue.mk.injEq]
  exact ⟨AddressValue.e_eq_of_flat_eq h, hp⟩

/-- Two values with the same elements and the same prefix length are the same value. -/
theorem AddressValue.ext_e {a b : AddressValue F} (h : ∀ i (hi : i < F.N), a.e[i] = b.e[i]) (hp : a.plen = b.plen) :
    a = b := by
  cases a; cases b
  simp only [AddressValue.mk.injEq]
  exact ⟨Vector.ext h, hp⟩

/-- Bit position `j` from the most significant end is bit `T − 1 − j` of `flat(a)` (R10). -/
theorem AddressValue.leadingBit_eq (a : AddressValue F) (j : Nat) (h : j < F.T) :
    a.leadingBit j = a.flat.getLsbD (F.T - 1 - j) := by
  simp [AddressValue.leadingBit, BitVec.getMsbD, h]

/-- The elements of `unpack(v)` concatenate to the bits of `v` above the prefix length. -/
theorem flat_unpack (v : BitVec F.dataW) : (unpack v).flat = v.extractLsb' 8 F.T := by
  apply BitVec.eq_of_getLsbD_eq
  intro j hj
  have hw := F.W_pos
  have hd : j / F.W < F.N := Nat.div_lt_of_lt_mul hj
  have hdm := Nat.div_add_mod j F.W
  rw [AddressValue.flat_getLsbD _ _ hj]
  have hsub : F.N - 1 - (F.N - 1 - j / F.W) = j / F.W := by generalize j / F.W = q at *; omega
  simp only [unpack, Vector.getElem_ofFn, BitVec.getLsbD_extractLsb', hsub, Nat.mod_lt j hw, hj,
    decide_true, Bool.true_and]
  congr 1
  rw [Nat.mul_comm] at hdm
  omega

@[simp] theorem pack_prefix (a : AddressValue F) : a.pack.extractLsb' 0 8 = a.plen := by
  apply BitVec.eq_of_getLsbD_eq
  intro j hj
  simp [AddressValue.pack, BitVec.getLsbD_append, hj]

@[simp] theorem pack_flat (a : AddressValue F) : a.pack.extractLsb' 8 F.T = a.flat := by
  apply BitVec.eq_of_getLsbD_eq
  intro j hj
  simp [AddressValue.pack, BitVec.getLsbD_append, hj]

end Sys2Proof.Machine
end

