-- ==== Sys2Proof/Laws/Engine.lean ====
section
/-! SUPPORT. What the engine functions give, element by element (`spec/41_bitwise.md`, `spec/42_netmask.md`). -/

namespace Sys2Proof.Machine

variable {F : Family}

@[simp] theorem AddressValue.lanes_e (f : BitVec F.W → BitVec F.W → BitVec F.W) (a b : AddressValue F) (i : Nat)
    (hi : i < F.N) : (AddressValue.lanes f a b).e[i] = f a.e[i] b.e[i] := by
  simp [AddressValue.lanes]

@[simp] theorem AddressValue.lanes_plen (f : BitVec F.W → BitVec F.W → BitVec F.W) (a b : AddressValue F) :
    (AddressValue.lanes f a b).plen = a.plen := rfl

@[simp] theorem AddressValue.notF_e (a : AddressValue F) (i : Nat) (hi : i < F.N) : a.notF.e[i] = ~~~a.e[i] := by
  simp [AddressValue.notF]

@[simp] theorem AddressValue.notF_plen (a : AddressValue F) : a.notF.plen = a.plen := rfl

@[simp] theorem AddressValue.andF_e (a b : AddressValue F) (i : Nat) (hi : i < F.N) :
    (a.andF b).e[i] = a.e[i] &&& b.e[i] := by simp [AddressValue.andF]

@[simp] theorem AddressValue.orF_e (a b : AddressValue F) (i : Nat) (hi : i < F.N) :
    (a.orF b).e[i] = a.e[i] ||| b.e[i] := by simp [AddressValue.orF]

@[simp] theorem AddressValue.xorF_e (a b : AddressValue F) (i : Nat) (hi : i < F.N) :
    (a.xorF b).e[i] = a.e[i] ^^^ b.e[i] := by simp [AddressValue.xorF]

@[simp] theorem AddressValue.andF_plen (a b : AddressValue F) : (a.andF b).plen = a.plen := rfl

@[simp] theorem AddressValue.orF_plen (a b : AddressValue F) : (a.orF b).plen = a.plen := rfl

@[simp] theorem AddressValue.xorF_plen (a b : AddressValue F) : (a.xorF b).plen = a.plen := rfl

/-- Everything the walk does (R72, step 3): an element `k` it reaches is shifted by the bits still left there, at most
the element width; an element it does not reach, or past its start, keeps its value. -/
theorem maskWalk_getElem (i rem : Nat) (m : Vector (BitVec F.W) F.N) (k : Nat) (hk : k < F.N) (hi : i ≤ F.N) :
    (maskWalk i rem m)[k] =
      if k < i ∧ (i - 1 - k) * F.W < rem then shl (ones F.W) (min (rem - (i - 1 - k) * F.W) F.W) else m[k] := by
  induction i generalizing rem m with
  | zero => simp [maskWalk]
  | succ i ih =>
    have hw := F.W_pos
    rw [maskWalk]
    by_cases h0 : rem = 0
    · simp [h0]
    rw [if_neg h0]
    simp only
    rw [ih _ _ (by omega)]
    by_cases hki : k = i
    · subst hki
      have : 0 < rem := by omega
      simp [this]
    · have hne : i ≠ k := fun h => hki h.symm
      have hset : (m.setIfInBounds i (shl (ones F.W) (min rem F.W)))[k] = m[k] := by
        simp [hne]
      rw [hset]
      by_cases hlt : k < i
      · have hmul : (i + 1 - 1 - k) * F.W = (i - 1 - k) * F.W + F.W := by
          rw [← Nat.succ_mul]; congr 1; omega
        have h1 : k < i + 1 := by omega
        simp only [hlt, h1, true_and, hmul]
        by_cases hr : rem ≤ F.W
        · have e1 : ¬ (i - 1 - k) * F.W < rem - min rem F.W := by omega
          have e2 : ¬ (i - 1 - k) * F.W + F.W < rem := by omega
          simp [e1, e2]
        · have e1 : rem - min rem F.W = rem - F.W := by omega
          have e2 : ((i - 1 - k) * F.W < rem - F.W) ↔ ((i - 1 - k) * F.W + F.W < rem) := by omega
          have e3 : rem - F.W - (i - 1 - k) * F.W = rem - ((i - 1 - k) * F.W + F.W) := by omega
          simp only [e1, e2, e3]
      · have h1 : ¬ k < i + 1 := by omega
        simp [hlt, h1]

/-- `netmask_F` has a value exactly on prefix lengths the family admits (R76). -/
theorem AddressValue.netmaskF_isSome (a : AddressValue F) : a.netmaskF.isSome ↔ a.Valid := by
  unfold AddressValue.netmaskF; split <;> simp_all

/-- The netmask of a valid value: its prefix length is kept and every element is all-ones, shifted left by the host
bits that reach it (R72). -/
theorem AddressValue.netmaskF_eq (a : AddressValue F) (h : a.Valid) :
    ∃ m, a.netmaskF = some m ∧ m.plen = a.plen ∧
      ∀ k (hk : k < F.N), m.e[k] = shl (ones F.W) (min (a.hostBits - (F.N - 1 - k) * F.W) F.W) := by
  refine ⟨_, if_pos h, rfl, fun k hk => ?_⟩
  simp only
  rw [maskWalk_getElem _ _ _ _ hk (Nat.le_refl _)]
  by_cases hr : (F.N - 1 - k) * F.W < a.hostBits
  · rw [if_pos ⟨hk, hr⟩]
  · rw [if_neg (fun c => hr c.2)]
    have : a.hostBits - (F.N - 1 - k) * F.W = 0 := by omega
    simp [this, shl]

/-- The same netmask bit by bit: bit `j` of the whole address is 1 from the host bits upwards (R73). -/
theorem AddressValue.netmaskF_bits (a m : AddressValue F) (hm : a.netmaskF = some m) (j : Nat) (hj : j < F.T) :
    m.flat.getLsbD j = decide (F.T - a.plen.toNat ≤ j) := by
  obtain ⟨m', hm', -, he⟩ := a.netmaskF_eq (a.netmaskF_isSome.mp (by simp [hm]))
  rw [hm] at hm'
  cases hm'
  have hw := F.W_pos
  have hd : j / F.W < F.N := Nat.div_lt_of_lt_mul hj
  have hml := Nat.mod_lt j hw
  have hdm := Nat.div_add_mod j F.W
  have hsub : F.N - 1 - (F.N - 1 - j / F.W) = j / F.W := by generalize j / F.W = q at *; omega
  have hH : a.hostBits = F.T - a.plen.toNat := rfl
  rw [m.flat_getLsbD j hj, he]
  simp only [hsub, shl, ones, BitVec.getLsbD_shiftLeft, BitVec.getLsbD_allOnes, hml, decide_true, Bool.true_and]
  rw [Nat.mul_comm] at hdm
  rw [← decide_not, ← Bool.decide_and, hH]
  generalize j / F.W * F.W = q at *
  generalize j % F.W = r at *
  apply decide_eq_decide.mpr
  omega

theorem AddressValue.netmaskF_none (a : AddressValue F) (h : ¬ a.Valid) : a.netmaskF = none := if_neg h

end Sys2Proof.Machine
end

