-- ==== Sys2Proof/Laws/Words.lean ====
section
/-! SUPPORT. Small lemmas about command words and their fields (`spec/30_encoding.md` R43, R46 to R48). -/

namespace Sys2Proof

/-- A word is the concatenation of its fields. -/
@[simp] theorem fieldsOf_word (cmd : BitVec 16) : (fieldsOf cmd).word = cmd := by
  apply BitVec.eq_of_getLsbD_eq
  intro j hj
  simp only [Fields.word, fieldsOf, BitVec.getLsbD_append, BitVec.getLsbD_extractLsb']
  interval_cases j <;> simp

@[simp] theorem regField_regOf (b : BitVec 2) : regField (regOf b) = b := rfl

@[simp] theorem regOf_regField (r : RegNum) : regOf (regField r) = r := rfl

/-- The test `wellFormed` is the three checks of R46, R47 and R48. -/
theorem Fields.wellFormed_iff (f : Fields) : f.WellFormed ↔ f.ZeroClear ∧ f.OpDefined ∧ f.UnusedClear := by
  simp only [Fields.WellFormed, Fields.wellFormed, Fields.ZeroClear, Fields.OpDefined, Fields.UnusedClear]
  cases usesOf f.op <;> simp [and_assoc]

end Sys2Proof
end

