-- ==== Sys2Proof/Laws/PerInstr.lean ====
section
/-! SUPPORT. What holds of every command as syntax, one lemma per constructor: its fields are those of a legal word
(`spec/30_encoding.md` R46 to R48) and the word's fields are read back as written (R43). -/

namespace Sys2Proof.Laws.WordForm

/-- The command's fields are well-formed and its word has just these fields. -/
def Statement (i : Instr) : Prop := i.fields.WellFormed ∧ fieldsOf (encode i) = i.fields

theorem ld (rd : RegNum) : Statement (.ld rd) := by unfold Statement; revert rd; decide

theorem readOut (ra : RegNum) : Statement (.readOut ra) := by unfold Statement; revert ra; decide

theorem mov (rd ra : RegNum) : Statement (.mov rd ra) := by unfold Statement; revert rd ra; decide

theorem not (rd ra : RegNum) : Statement (.not rd ra) := by unfold Statement; revert rd ra; decide

theorem and (rd ra rb : RegNum) : Statement (.and rd ra rb) := by unfold Statement; revert rd ra rb; decide

theorem or (rd ra rb : RegNum) : Statement (.or rd ra rb) := by unfold Statement; revert rd ra rb; decide

theorem xor (rd ra rb : RegNum) : Statement (.xor rd ra rb) := by unfold Statement; revert rd ra rb; decide

theorem mask (rd ra : RegNum) : Statement (.mask rd ra) := by unfold Statement; revert rd ra; decide

theorem net (rd ra : RegNum) : Statement (.net rd ra) := by unfold Statement; revert rd ra; decide

theorem bcast (rd ra : RegNum) : Statement (.bcast rd ra) := by unfold Statement; revert rd ra; decide

theorem rdst : Statement .rdst := by unfold Statement; decide

end Sys2Proof.Laws.WordForm
end

