-- ==== Sys2Proof/Laws/Step.lean ====
section
/-! SUPPORT. Everything a command and a step can do, said once: the lemmas the proofs about `exec` and `step` cite
instead of unfolding them. -/

namespace Sys2Proof.Machine

variable {F : Family}

theorem execLd_valid (u : UnitState F) (p : Port F) (rd : RegNum) (h : (unpack p.wdata).Valid) :
    exec (.ld rd) ⟨F, u, p⟩ = .next ⟨F, u.write rd (unpack p.wdata), p.respond okCode 0⟩ := if_pos h

theorem execLd_invalid (u : UnitState F) (p : Port F) (rd : RegNum) (h : ¬ (unpack p.wdata).Valid) :
    exec (.ld rd) ⟨F, u, p⟩ =
      .next ⟨F, u.setFlag .invalidPrefixLength, p.respond FaultKind.invalidPrefixLength.code 0⟩ := if_neg h

/-- `exec` of a command that answers a next state: it wrote its destination register, with a loaded value whose prefix
length is valid or with one whose prefix length is a source register's; or it wrote nothing and returned data; or it is
an LD that raised InvalidPrefixLength. -/
theorem exec_next (i : Instr) (u : UnitState F) (p : Port F) (t : State) (h : exec i ⟨F, u, p⟩ = .next t) :
    (∃ rd v, i.dest = some rd ∧ t = ⟨F, u.write rd v, p.respond okCode 0⟩ ∧
        (i = .ld rd ∧ v = unpack p.wdata ∧ v.Valid ∨ (∀ r, i ≠ .ld r) ∧ ∃ ra, v.plen = (u.read ra).plen)) ∨
      (∃ d, i.dest = none ∧ t = ⟨F, u, p.respond okCode d⟩) ∨
      ∃ rd, i = .ld rd ∧ ¬ (unpack p.wdata).Valid ∧
        t = ⟨F, u.setFlag .invalidPrefixLength, p.respond FaultKind.invalidPrefixLength.code 0⟩ := by
  have masked : ∀ (rd ra : RegNum) (o : Option (AddressValue F)),
      (∀ v, o = some v → v.plen = (u.read ra).plen) →
      State.completeWith ⟨F, u, p⟩ rd o = .next t →
      ∃ v, t = ⟨F, u.write rd v, p.respond okCode 0⟩ ∧ ∃ ra, v.plen = (u.read ra).plen := by
    intro rd ra o ho hc
    cases o with
    | none => cases hc
    | some v => exact ⟨v, (Host.Outcome.next.inj hc).symm, ra, ho v rfl⟩
  have mplen : ∀ (a m : AddressValue F), a.netmaskF = some m → m.plen = a.plen := by
    intro a m hm
    have hv : a.Valid := a.netmaskF_isSome.mp (by simp [hm])
    obtain ⟨m', hm', hp, -⟩ := a.netmaskF_eq hv
    rw [hm] at hm'
    cases hm'
    exact hp
  cases i with
  | ld rd =>
    by_cases hv : (unpack p.wdata).Valid
    · rw [execLd_valid u p rd hv, Host.Outcome.next.injEq] at h
      exact .inl ⟨rd, _, rfl, h.symm, .inl ⟨rfl, rfl, hv⟩⟩
    · rw [execLd_invalid u p rd hv, Host.Outcome.next.injEq] at h
      exact .inr (.inr ⟨rd, rfl, hv, h.symm⟩)
  | readOut ra => exact .inr (.inl ⟨_, rfl, (Host.Outcome.next.inj h).symm⟩)
  | rdst => exact .inr (.inl ⟨_, rfl, (Host.Outcome.next.inj h).symm⟩)
  | mov rd ra => exact .inl ⟨rd, _, rfl, (Host.Outcome.next.inj h).symm, .inr ⟨by simp, ra, rfl⟩⟩
  | not rd ra => exact .inl ⟨rd, _, rfl, (Host.Outcome.next.inj h).symm, .inr ⟨by simp, ra, rfl⟩⟩
  | and rd ra rb => exact .inl ⟨rd, _, rfl, (Host.Outcome.next.inj h).symm, .inr ⟨by simp, ra, rfl⟩⟩
  | or rd ra rb => exact .inl ⟨rd, _, rfl, (Host.Outcome.next.inj h).symm, .inr ⟨by simp, ra, rfl⟩⟩
  | xor rd ra rb => exact .inl ⟨rd, _, rfl, (Host.Outcome.next.inj h).symm, .inr ⟨by simp, ra, rfl⟩⟩
  | mask rd ra =>
    obtain ⟨v, ht, hp⟩ := masked rd ra _ (fun m hm => mplen _ m hm) h
    exact .inl ⟨rd, v, rfl, ht, .inr ⟨by simp, hp⟩⟩
  | net rd ra =>
    obtain ⟨v, ht, hp⟩ := masked rd ra (u.read ra).networkF (by
      intro v hv
      simp only [AddressValue.networkF, Option.map_eq_some_iff] at hv
      obtain ⟨m, -, rfl⟩ := hv
      rfl) h
    exact .inl ⟨rd, v, rfl, ht, .inr ⟨by simp, hp⟩⟩
  | bcast rd ra =>
    obtain ⟨v, ht, hp⟩ := masked rd ra (u.read ra).broadcastF (by
      intro v hv
      simp only [AddressValue.broadcastF, Option.map_eq_some_iff] at hv
      obtain ⟨m, -, rfl⟩ := hv
      rfl) h
    exact .inl ⟨rd, v, rfl, ht, .inr ⟨by simp, hp⟩⟩

/-- `exec` answers a next state wherever every register's prefix length is valid. -/
theorem exec_total (i : Instr) (u : UnitState F) (p : Port F) (h : u.PrefixesValid) :
    ∃ t, exec i ⟨F, u, p⟩ = .next t := by
  have masked : ∀ (rd ra : RegNum) (f : AddressValue F → AddressValue F),
      ∃ t, State.completeWith ⟨F, u, p⟩ rd ((u.read ra).netmaskF.map f) = .next t := by
    intro rd ra f
    obtain ⟨m, hm, -⟩ := (u.read ra).netmaskF_eq (h ra)
    rw [hm]
    exact ⟨_, rfl⟩
  cases i with
  | ld rd =>
    by_cases hv : (unpack p.wdata).Valid
    · exact ⟨_, execLd_valid u p rd hv⟩
    · exact ⟨_, execLd_invalid u p rd hv⟩
  | mask rd ra =>
    obtain ⟨t, ht⟩ := masked rd ra id
    rw [Option.map_id] at ht
    exact ⟨t, ht⟩
  | net rd ra => exact masked rd ra _
  | bcast rd ra => exact masked rd ra _
  | readOut _ | rdst | mov _ _ | not _ _ | and _ _ _ | or _ _ _ | xor _ _ _ => exact ⟨_, rfl⟩

theorem step_idle (u : UnitState F) (p : Port F) (h : p.pending = []) : step ⟨F, u, p⟩ = .next ⟨F, u, p⟩ := by
  simp [step, h]

theorem step_reset (u : UnitState F) (p : Port F) (rest : List (Event F)) (h : p.pending = .reset :: rest) :
    step ⟨F, u, p⟩ = .next ⟨F, UnitState.reset F, { p with pending := rest }⟩ := by
  simp [step, h]

theorem step_illegal (u : UnitState F) (p : Port F) (c : Command F) (rest : List (Event F)) (e : Illegal)
    (h : p.pending = .command c :: rest) (hd : decode c.cmd = .error e) :
    step ⟨F, u, p⟩ = .next ⟨F, u.setFlag .illegalCommand,
      Port.respond { p with wdata := c.wdata, pending := rest } FaultKind.illegalCommand.code 0⟩ := by
  simp [step, h, hd]

theorem step_command (u : UnitState F) (p : Port F) (c : Command F) (rest : List (Event F)) (i : Instr)
    (h : p.pending = .command c :: rest) (hd : decode c.cmd = .ok i) :
    step ⟨F, u, p⟩ = exec i ⟨F, u, { p with wdata := c.wdata, pending := rest }⟩ := by
  simp [step, h, hd]

/-- Everything a step that answers a next state can have been: idle, a reset, an illegal word, or a command. -/
theorem step_next (u : UnitState F) (p : Port F) (t : State) (h : step ⟨F, u, p⟩ = .next t) :
    (p.pending = [] ∧ t = ⟨F, u, p⟩) ∨
      (∃ rest, p.pending = .reset :: rest ∧ t = ⟨F, UnitState.reset F, { p with pending := rest }⟩) ∨
      (∃ c rest e, p.pending = .command c :: rest ∧ decode c.cmd = .error e ∧
        t = ⟨F, u.setFlag .illegalCommand,
          Port.respond { p with wdata := c.wdata, pending := rest } FaultKind.illegalCommand.code 0⟩) ∨
      ∃ c rest i, p.pending = .command c :: rest ∧ decode c.cmd = .ok i ∧
        exec i ⟨F, u, { p with wdata := c.wdata, pending := rest }⟩ = .next t := by
  match hp : p.pending with
  | [] =>
    rw [step_idle u p hp] at h
    exact .inl ⟨rfl, (Host.Outcome.next.inj h).symm⟩
  | .reset :: rest =>
    rw [step_reset u p rest hp] at h
    exact .inr (.inl ⟨rest, rfl, (Host.Outcome.next.inj h).symm⟩)
  | .command c :: rest =>
    cases hd : decode c.cmd with
    | error e =>
      rw [step_illegal u p c rest e hp hd] at h
      exact .inr (.inr (.inl ⟨c, rest, e, rfl, hd, (Host.Outcome.next.inj h).symm⟩))
    | ok i =>
      rw [step_command u p c rest i hp hd] at h
      exact .inr (.inr (.inr ⟨c, rest, i, rfl, hd, h⟩))

/-- A run takes one step, then the rest of the run. -/
theorem run_succ (n : Nat) (u : UnitState F) (p : Port F) :
    Host.Core.run core (n + 1) (State.mk F u p) =
      match step ⟨F, u, p⟩ with
      | .next t => Host.Core.run core n t
      | .fault r => .fault r
      | .refused r => .refused r := by
  simp only [Host.Core.run]
  have : core.step (State.mk F u p) = step ⟨F, u, p⟩ := rfl
  rw [this]
  cases step ⟨F, u, p⟩ <;> rfl

end Sys2Proof.Machine
end

