-- ==== Sys2Proof/Tests/Slice0.lean ====
section
/-! SUPPORT. Tests from `spec/95_test_vectors.md`, each about one step or one function, and for every statement with
hypotheses a witness that meets them (`test_witness_<statement>`). -/

namespace Sys2Proof.Tests

open Sys2Proof.Machine

/-! ### Well-formedness: one ill-formed word for each check -/

theorem test_wellFormed_ok :
    (Fields.mk 0x1 3 0 0 0).WellFormed ∧ (Fields.mk 0x2 0 3 0 0).WellFormed ∧ (Fields.mk 0x5 3 3 3 0).WellFormed ∧
    (Fields.mk 0xB 0 0 0 0).WellFormed := by decide

theorem test_wellFormed_zero_field : ¬ (Fields.mk 0x1 0 0 0 1).WellFormed ∧ ¬ (Fields.mk 0xA 3 0 0 0x3F).WellFormed := by
  decide

theorem test_wellFormed_reserved_opcode :
    ∀ op ∈ [0x0#4, 0xC#4, 0xD#4, 0xE#4, 0xF#4], ¬ (Fields.mk op 0 0 0 0).WellFormed := by decide

theorem test_wellFormed_unused_field :
    ¬ (Fields.mk 0x1 0 1 0 0).WellFormed ∧ ¬ (Fields.mk 0x1 0 0 1 0).WellFormed ∧ ¬ (Fields.mk 0x2 1 0 0 0).WellFormed ∧
    ¬ (Fields.mk 0x2 0 0 1 0).WellFormed ∧ ¬ (Fields.mk 0x8 0 0 2 0).WellFormed ∧ ¬ (Fields.mk 0xB 1 0 0 0).WellFormed ∧
    ¬ (Fields.mk 0xB 0 1 0 0).WellFormed ∧ ¬ (Fields.mk 0xB 0 0 1 0).WellFormed := by decide

/-! ### Decoding: words written out field by field from section 2.1 -/

theorem test_decode_transfer :
    decode 0b0001110000000000 = .ok (.ld 3) ∧ decode 0b0010001000000000 = .ok (.readOut 2) ∧
    decode 0b0011001100000000 = .ok (.mov 0 3) := by decide

theorem test_decode_bitwise :
    decode 0b0100100100000000 = .ok (.not 2 1) ∧ decode 0b0101100001000000 = .ok (.and 2 0 1) ∧
    decode 0b0110110010000000 = .ok (.or 3 0 2) ∧ decode 0b0111100001000000 = .ok (.xor 2 0 1) := by decide

theorem test_decode_netmask : decode 0b1000010000000000 = .ok (.mask 1 0) := by decide

theorem test_decode_derive :
    decode 0b1001100000000000 = .ok (.net 2 0) ∧ decode 0b1010110000000000 = .ok (.bcast 3 0) := by decide

theorem test_decode_system : decode 0b1011000000000000 = .ok .rdst := by decide

theorem test_decode_illegal :
    decode 0xFFFF = .error .zeroField ∧ decode 0x4901 = .error .zeroField ∧ decode 0x0000 = .error .reservedOpcode ∧
    decode 0xC000 = .error .reservedOpcode ∧ decode 0x1100 = .error .unusedField ∧ decode 0x3440 = .error .unusedField ∧
    decode 0x98C0 = .error .unusedField ∧ decode 0xB040 = .error .unusedField := by decide

theorem test_decode_table_word :
    decodeTableWord 16 0x7540 = some (.xor 1 1 1) ∧ decodeTableWord 16 0xD000 = none ∧ decodeTableWord 17 0x1000 = none := by
  decide

/-! ### One command at a time -/

/-- A unit whose registers hold the packed values and whose flags are given. -/
def unitOf (F : Family) (regs : List Nat) (ill ipl : Bool) : UnitState F :=
  ⟨Vector.ofFn fun r => unpack (BitVec.ofNat _ (regs.getD r 0)), ⟨ill, ipl⟩⟩

/-- A state with these registers, clear flags, a payload and nothing pending. -/
def stateOf (F : Family) (regs : List Nat) (wdata : Nat) : State :=
  ⟨F, unitOf F regs false false, ⟨BitVec.ofNat _ wdata, [], []⟩⟩

/-- A state with these registers, these flags and these events to come. -/
def waiting (F : Family) (regs : List Nat) (ill ipl : Bool) (events : List (Event F)) : State :=
  ⟨F, unitOf F regs ill ipl, ⟨0, events, []⟩⟩

/-- What a next state shows: the packed registers, STATUS and the responses. -/
def shown (o : Host.Outcome State Fault Refusal) : Option (List Nat × Nat × List (Nat × Nat)) :=
  match o with
  | .next s => some (s.unit.A.toList.map fun a => a.pack.toNat, s.unit.STATUS.word.toNat,
      s.port.responses.map fun x => (x.err.toNat, x.rdata.toNat))
  | _ => none

/-- 2.2 v4, lines 2 and 4: prefix length 33 is refused, 32 is legal. -/
theorem test_ld :
    shown (exec (.ld 0) (stateOf .v4 [] 0x0A00000121)) = some ([0, 0, 0, 0], 2, [(2, 0)]) ∧
    shown (exec (.ld 0) (stateOf .v4 [] 0x0A00000120)) = some ([0x0A00000120, 0, 0, 0], 0, [(0, 0)]) := by decide

/-- 2.2 v6, lines 2 and 3: prefix length 128 is legal, 129 is refused. -/
theorem test_ld_v6 :
    shown (exec (.ld 1) (stateOf .v6 [] 0xFE800000000000000202B3FFFE1E832980)) =
      some ([0, 0xFE800000000000000202B3FFFE1E832980, 0, 0], 0, [(0, 0)]) ∧
    shown (exec (.ld 2) (stateOf .v6 [] 0xFE80000000000000000000000000000181)) = some ([0, 0, 0, 0], 2, [(2, 0)]) := by
  decide

/-- 2.2 v4, line 11. -/
theorem test_rd :
    shown (exec (.readOut 1) (stateOf .v4 [5, 0xFFFFFFFF00] 7)) =
      some ([5, 0xFFFFFFFF00, 0, 0], 0, [(0, 0xFFFFFFFF00)]) := by decide

/-- 2.2 v4, line 8. -/
theorem test_mov :
    shown (exec (.mov 3 0) (stateOf .v4 [0x0A00000120, 1, 2, 3] 0)) =
      some ([0x0A00000120, 1, 2, 0x0A00000120], 0, [(0, 0)]) := by decide

/-- 2.3 v4, line 3: each element complemented in 8 bits, the prefix length kept. -/
theorem test_not :
    shown (exec (.not 2 0) (stateOf .v4 [0xC0A8006519] 0)) =
      some ([0xC0A8006519, 0, 0x3F57FF9A19, 0], 0, [(0, 0)]) := by decide

/-- 2.3 v6, line 3: an element 0 becomes 0xFFFF. -/
theorem test_not_v6 :
    shown (exec (.not 2 0) (stateOf .v6 [0x20010DB8FACE0000000000000000000040] 0)) =
      some ([0x20010DB8FACE0000000000000000000040, 0, 0xDFFEF2470531FFFFFFFFFFFFFFFFFFFF40, 0], 0, [(0, 0)]) := by
  decide

/-- 2.3 v4, lines 5 and 6: the prefix length is the left operand's. -/
theorem test_and :
    shown (exec (.and 2 0 1) (stateOf .v4 [0xC0A8006519, 0xFFFFF00F08] 0)) =
      some ([0xC0A8006519, 0xFFFFF00F08, 0xC0A8000519, 0], 0, [(0, 0)]) ∧
    shown (exec (.and 3 1 0) (stateOf .v4 [0xC0A8006519, 0xFFFFF00F08] 0)) =
      some ([0xC0A8006519, 0xFFFFF00F08, 0, 0xC0A8000508], 0, [(0, 0)]) := by decide

/-- 2.3 v4, line 7. -/
theorem test_or :
    shown (exec (.or 2 0 1) (stateOf .v4 [0xC0A8006519, 0xFFFFF00F08] 0)) =
      some ([0xC0A8006519, 0xFFFFF00F08, 0xFFFFF06F19, 0], 0, [(0, 0)]) := by decide

/-- 2.3 v4, lines 8 and 9: a source is also the destination in the second. -/
theorem test_xor :
    shown (exec (.xor 3 0 1) (stateOf .v4 [0xC0A8006519, 0xFFFFF00F08] 0)) =
      some ([0xC0A8006519, 0xFFFFF00F08, 0, 0x3F57F06A19], 0, [(0, 0)]) ∧
    shown (exec (.xor 3 3 1) (stateOf .v4 [0, 0xFFFFF00F08, 0, 0x3F57F06A19] 0)) =
      some ([0, 0xFFFFF00F08, 0, 0xC0A8006519], 0, [(0, 0)]) := by decide

/-- 1.3, the walk of scenario 5. -/
theorem test_mask :
    shown (exec (.mask 1 0) (stateOf .v4 [0xC0A800680B] 0)) =
      some ([0xC0A800680B, 0xFFE000000B, 0, 0], 0, [(0, 0)]) := by decide

/-- 3.4 V-M6, in place. -/
theorem test_mask_v6 :
    shown (exec (.mask 0 0) (stateOf .v6 [0xFE800000000000000202B3FFFE1E83290A] 0)) =
      some ([0xFFC000000000000000000000000000000A, 0, 0, 0], 0, [(0, 0)]) := by decide

/-- 2.4 v4, prefix lengths 12 and 0. -/
theorem test_net :
    shown (exec (.net 2 0) (stateOf .v4 [0xAC1005040C] 0)) = some ([0xAC1005040C, 0, 0xAC1000000C, 0], 0, [(0, 0)]) ∧
    shown (exec (.net 2 0) (stateOf .v4 [0x0A141E2800] 0)) = some ([0x0A141E2800, 0, 0, 0], 0, [(0, 0)]) := by decide

/-- 2.4 v6, prefix length 52. -/
theorem test_net_v6 :
    shown (exec (.net 2 0) (stateOf .v6 [0x20010DB8FACE123456789ABCDEF00FED34] 0)) =
      some ([0x20010DB8FACE123456789ABCDEF00FED34, 0, 0x20010DB8FACE1000000000000000000034, 0], 0, [(0, 0)]) := by
  decide

/-- 2.4 v4, prefix lengths 11 and 32. -/
theorem test_bcast :
    shown (exec (.bcast 3 0) (stateOf .v4 [0xC0A800680B] 0)) =
      some ([0xC0A800680B, 0, 0, 0xC0BFFFFF0B], 0, [(0, 0)]) ∧
    shown (exec (.bcast 0 0) (stateOf .v4 [0x0A141E2820] 0)) = some ([0x0A141E2820, 0, 0, 0], 0, [(0, 0)]) := by decide

/-- 2.4 v6, prefix length 1. -/
theorem test_bcast_v6 :
    shown (exec (.bcast 3 0) (stateOf .v6 [0x20010DB8FACE123456789ABCDEF00FED01] 0)) =
      some ([0x20010DB8FACE123456789ABCDEF00FED01, 0, 0, 0x7FFFFFFFFFFFFFFFFFFFFFFFFFFFFFFF01], 0, [(0, 0)]) := by
  decide

/-- 2.5, lines 7 and 8: both flags; reading clears neither. -/
theorem test_rdst : shown (exec .rdst (waiting .v4 [] true true [])) = some ([0, 0, 0, 0], 3, [(0, 3)]) := by decide

/-! ### One step -/

/-- A command with its payload. -/
def cmdOf (F : Family) (cmd : BitVec 16) (wdata : Nat) : Command F := ⟨cmd, BitVec.ofNat _ wdata⟩

/-- A state from which the host presents one command. -/
def before (F : Family) (regs : List Nat) (cmd : BitVec 16) (wdata : Nat) : State :=
  waiting F regs false false [.command (cmdOf F cmd wdata)]

/-- 2.5, line 3: an illegal word whose payload has a bad prefix length raises IllegalCommand only. -/
theorem test_step_illegal :
    shown (step (before .v4 [0xC0A8006519] 0x1001 0x0101010163)) = some ([0xC0A8006519, 0, 0, 0], 1, [(1, 0)]) := by
  decide

/-- P1, line 1: the payload reaches LD. -/
theorem test_step_ld :
    shown (step (before .v4 [] 0x1000 0xC0A8006519)) = some ([0xC0A8006519, 0, 0, 0], 0, [(0, 0)]) := by decide

/-- R96: a reset event clears registers and flags and gives no response. -/
theorem test_step_reset :
    shown (step (waiting .v4 [0xC0A8006519, 1, 2, 3] true true [.reset])) = some ([0, 0, 0, 0], 0, []) := by decide

/-- 2.6, line 7, as the first command after reset. -/
theorem test_step_withFetchWord :
    shown (step (State.reset.withFetchWord 16 0x4400)) = some ([0, 0xFFFFFFFF00, 0, 0], 0, [(0, 0)]) := by decide

/-- X1 in 1.1: the payload of `LD A0, 192.168.0.1/24`. -/
theorem test_assemble :
    assemble .v4 ⟨.ld 0, some (.dotted [192, 168, 0, 1] 24)⟩ = .ok (cmdOf .v4 0x1000 0xC0A8000118) ∧
    assemble .v6 ⟨.ld 0, some (.dotted [192, 168, 0, 1] 24)⟩ = .error .dottedForm ∧
    assemble .v4 ⟨.not 0 0, some (.hex 0)⟩ = .error .valueUnexpected ∧ assemble .v4 ⟨.ld 0, none⟩ = .error .valueMissing := by
  decide

/-! ### Witnesses: for each statement with hypotheses, concrete states and operands that meet them -/

/-- The address value with this packed form. -/
def valueOf (F : Family) (n : Nat) : AddressValue F := unpack (BitVec.ofNat _ n)

theorem test_witness_MatchAndMaskSelectTheCommand :
    decode 0x5840 = .ok (.and 2 0 1) ∧ ⟨"AND", 0x5000, 0xF03F⟩ ∈ opcodeMap := by decide

theorem test_witness_IllegalCommandExactlyWhenTheWordIsIllegal :
    ¬ (fieldsOf 0x1001).ZeroClear ∧ (fieldsOf 0xC000).op = 0xC ∧ (fieldsOf 0xF000).op = 0xF ∧ (fieldsOf 0x0000).op = 0x0 ∧
    (fieldsOf 0x2400).rd ≠ 0 ∧ usesOf (fieldsOf 0x2400).op = some ⟨false, true, false⟩ ∧
    shown (step (before .v4 [] 0x2400 0)) = some ([0, 0, 0, 0], 1, [(1, 0)]) := by decide

theorem test_witness_ExactlyTheLegalWords :
    decode 0xFFFF = .error .zeroField ∧ decode 0x0000 = .error .reservedOpcode ∧ decode 0x1000 = .ok (.ld 0) := by decide

theorem test_witness_StepRunsTheDecodedCommand :
    decode (cmdOf .v4 0x2000 0).cmd = .ok (.readOut 0) ∧
    (before .v4 [0xC0A8006519] 0x2000 0).port.pending = [.command (cmdOf .v4 0x2000 0)] := by decide

theorem test_witness_IdleUnitHoldsItsState :
    State.reset.port.pending = [] ∧ (stateOf .v6 [7] 3).port.pending = [] := by decide

theorem test_witness_OnlyResetClearsAFlag :
    shown (step (waiting .v4 [5] true true [.command (cmdOf .v4 0x3400 0), .reset])) =
      some ([5, 5, 0, 0], 3, [(0, 0)]) ∧
    shown (step (waiting .v4 [5] true true [])) = some ([5, 0, 0, 0], 3, []) ∧
    shown (step (waiting .v4 [5] true true [.reset])) = some ([0, 0, 0, 0], 0, []) := by decide

theorem test_witness_FamilyIsFixedForLife :
    shown (Host.Core.run core 1 (waiting .v6 [5] true true [.reset])) = some ([0, 0, 0, 0], 0, []) := by decide

theorem test_witness_EveryStepAnswersANextState :
    (stateOf .v4 [0xFFFFFFFF20, 0x20, 0, 0] 0).Inv ∧ (stateOf .v6 [0x80, 0, 1, 0x40] 0).Inv ∧
    (before .v4 [0x20] 0xAC00 0).Inv := by decide

theorem test_witness_StepKeepsTheRegisterInvariant :
    (before .v4 [0x20] 0x1000 33).Inv ∧ shown (step (before .v4 [0x20] 0x1000 33)) = some ([32, 0, 0, 0], 2, [(2, 0)]) ∧
    shown (exec (.mask 1 0) (stateOf .v4 [0x20] 0)) = some ([32, 0xFFFFFFFF20, 0, 0], 0, [(0, 0)]) := by decide

theorem test_witness_EveryCommandGetsItsResponse :
    (waiting .v4 [0x20] false false ([cmdOf .v4 0xC000 0, cmdOf .v4 0x2000 0].map .command)).Inv := by decide

theorem test_witness_LaterEventsHaveNoEffectOnEarlierCommands :
    shown (Host.Core.run core 1 (before .v4 [5] 0x2000 0)) = some ([5, 0, 0, 0], 0, [(0, 5)]) ∧
    shown (Host.Core.run core 1 (waiting .v4 [5] false false [.command (cmdOf .v4 0x2000 0), .reset])) =
      some ([5, 0, 0, 0], 0, [(0, 5)]) := by decide

theorem test_witness_FaultWritesOnlyItsFlag :
    decode 0x1001 = .error .zeroField ∧ decode 0x1400 = .ok (.ld 1) ∧
    Family.v4.T < ((cmdOf .v4 0x1400 0x0101010163).wdata.extractLsb' 0 8).toNat ∧
    Family.v4.T < ((cmdOf .v4 0x1400 0x21).wdata.extractLsb' 0 8).toNat ∧
    Family.v6.T < ((cmdOf .v6 0x1400 0x81).wdata.extractLsb' 0 8).toNat := by decide

theorem test_witness_FaultLeavesTheNextCommandUndisturbed :
    (unitOf .v4 [0x20, 0x19] false true).PrefixesValid ∧ decode (cmdOf .v4 0xF000 0).cmd = .error .reservedOpcode ∧
    decode (cmdOf .v4 0x1400 0x21).cmd = .ok (.ld 1) ∧
    Family.v4.T < ((cmdOf .v4 0x1400 0x21).wdata.extractLsb' 0 8).toNat ∧
    decode (cmdOf .v4 0x9800 0).cmd ≠ .ok .rdst := by decide

theorem test_witness_InvalidPrefixLengthExactlyWhenLdIsOutOfRange :
    decode 0x1800 = .ok (.ld 2) ∧ Family.v4.T < ((cmdOf .v4 0x1800 0x01020304FF).wdata.extractLsb' 0 8).toNat ∧
    shown (step (before .v4 [] 0x1800 0x01020304FF)) = some ([0, 0, 0, 0], 2, [(2, 0)]) := by decide

/-- 2.5, lines 3 and 6: the two fault responses. -/
theorem test_witness_OneResponsePerCommand :
    shown (step (before .v4 [] 0x1001 0x0101010163)) = some ([0, 0, 0, 0], 1, [(1, 0)]) ∧
    shown (step (before .v4 [] 0x1400 0x0101010163)) = some ([0, 0, 0, 0], 2, [(2, 0)]) := by decide

/-- 2.5, lines 4, 10 and 12: the responses of commands that execute. -/
theorem test_witness_OneResponsePerCommand_ok :
    shown (step (before .v4 [0xC0A8006519] 0x2000 0)) = some ([0xC0A8006519, 0, 0, 0], 0, [(0, 0xC0A8006519)]) ∧
    shown (step (waiting .v4 [] true false [.command (cmdOf .v4 0xB000 0)])) = some ([0, 0, 0, 0], 1, [(0, 1)]) ∧
    shown (step (before .v4 [0xC0A8006519] 0x9800 0)) = some ([0xC0A8006519, 0, 0xC0A8000019, 0], 0, [(0, 0)]) := by
  decide

/-- 2.2 v4, lines 2 and 4: LD at the edge of its range, on either side. -/
theorem test_witness_OneResponsePerCommand_ld :
    shown (step (before .v4 [] 0x1000 0x0A00000120)) = some ([0x0A00000120, 0, 0, 0], 0, [(0, 0)]) ∧
    shown (step (before .v4 [] 0x1000 0x0A00000121)) = some ([0, 0, 0, 0], 2, [(2, 0)]) := by decide

/-- 2.5, line 5: `ILL` already set and told by a response, an illegal word presented. -/
theorem test_witness_StepKeepsFlagsAndResponsesInStep :
    (State.mk .v4 (unitOf .v4 [] true false)
      ⟨0, [.command (cmdOf .v4 0x2400 0)], [⟨0, 0⟩, ⟨1, 0⟩]⟩).FlagsTellResponses ∧
    shown (step (State.mk .v4 (unitOf .v4 [] true false) ⟨0, [.command (cmdOf .v4 0x2400 0)], [⟨0, 0⟩, ⟨1, 0⟩]⟩)) =
      some ([0, 0, 0, 0], 1, [(0, 0), (1, 0), (1, 0)]) := by decide

/-- P4, lines 1 and 3. -/
theorem test_witness_StatusRecordsTheFaultsOfARun :
    (unitOf .v4 [] false false).STATUS.word = 0 ∧
    shown (Host.Core.run core 2 (waiting .v4 [] false false
      ([cmdOf .v4 0x1000 0x0A01020321, cmdOf .v4 0xC000 0].map .command))) = some ([0, 0, 0, 0], 3, [(2, 0), (1, 0)]) := by
  decide

/-- Both cases: a command that completes, and one the mask engine has no value for. -/
theorem test_witness_NoResultDependsOnAFlag :
    shown (exec (.mov 1 0) (waiting .v4 [5] true false [])) = some ([5, 5, 0, 0], 1, [(0, 0)]) ∧
    shown (exec (.mov 1 0) (waiting .v4 [5] false true [])) = some ([5, 5, 0, 0], 2, [(0, 0)]) ∧
    shown (exec (.mask 1 0) (stateOf .v4 [0x21] 0)) = none := by decide

theorem test_witness_PayloadIsReadByLdOnly :
    ((stateOf .v4 [] 0x20).port.wdata.extractLsb' 0 8).toNat = Family.v4.T ∧
    ((stateOf .v6 [] 0x80).port.wdata.extractLsb' 0 8).toNat = Family.v6.T ∧ (∀ rd, Instr.rdst ≠ .ld rd) ∧
    shown (exec (.mov 1 0) (stateOf .v4 [5] 33)) = shown (exec (.mov 1 0) (stateOf .v4 [5] 0)) := by decide

theorem test_witness_CommandFrame :
    shown (exec (.bcast 0 1) (stateOf .v4 [1, 2, 3, 4] 0)) = some ([0x3FFFFFFF02, 2, 3, 4], 0, [(0, 0)]) ∧
    Instr.dest (.bcast 0 1) ≠ some 2 ∧ Instr.dest .rdst ≠ some 0 ∧
    shown (exec (.ld 0) (stateOf .v4 [1, 2, 3, 4] 0xFF)) = some ([1, 2, 3, 4], 2, [(2, 0)]) := by decide

/-- The premise of every `IllegalIff`: for each opcode a legal word and an illegal one of 2.1. -/
theorem test_witness_IllegalIff :
    ∀ x ∈ [(0x1#4, 0x1C00#16, 0x1100#16), (0x2, 0x2300, 0x2140), (0x3, 0x3300, 0x3440), (0x4, 0x4900, 0x4901)],
      (fieldsOf x.2.1).op = x.1 ∧ (fieldsOf x.2.2).op = x.1 ∧ (decode x.2.1).toOption.isSome = true ∧
        (decode x.2.2).toOption.isNone = true := by
  simp only [List.forall_mem_cons, List.not_mem_nil, false_implies, implies_true, and_true]; decide

theorem test_witness_IllegalIff_lanes :
    ∀ x ∈ [(0x5#4, 0x5FC0#16, 0x5841#16), (0x6, 0x6C80, 0x6C81), (0x7, 0x7540, 0x7541)],
      (fieldsOf x.2.1).op = x.1 ∧ (fieldsOf x.2.2).op = x.1 ∧ (decode x.2.1).toOption.isSome = true ∧
        (decode x.2.2).toOption.isNone = true := by
  simp only [List.forall_mem_cons, List.not_mem_nil, false_implies, implies_true, and_true]; decide

theorem test_witness_IllegalIff_derive :
    ∀ x ∈ [(0x8#4, 0x8A00#16, 0x8480#16), (0x9, 0x9800, 0x98C0), (0xA, 0xAF00, 0xAC3F), (0xB, 0xB000, 0xB400)],
      (fieldsOf x.2.1).op = x.1 ∧ (fieldsOf x.2.2).op = x.1 ∧ (decode x.2.1).toOption.isSome = true ∧
        (decode x.2.2).toOption.isNone = true := by
  simp only [List.forall_mem_cons, List.not_mem_nil, false_implies, implies_true, and_true]; decide

/-- Both clauses at the edge of the range, on both families. -/
theorem test_witness_LdConstructsTheValueOrFaults :
    ((stateOf .v4 [] 0x0A00000120).port.wdata.extractLsb' 0 8).toNat = Family.v4.T ∧
    ((stateOf .v4 [] 0x0A00000121).port.wdata.extractLsb' 0 8).toNat = Family.v4.T + 1 ∧
    ((stateOf .v6 [] 0x80).port.wdata.extractLsb' 0 8).toNat = Family.v6.T ∧
    ((stateOf .v6 [] 0x81).port.wdata.extractLsb' 0 8).toNat = Family.v6.T + 1 := by decide

theorem test_witness_MovCopiesTheWholeValue :
    shown (exec (.mov 3 3) (stateOf .v4 [1, 2, 3, 0xFF] 0)) = some ([1, 2, 3, 0xFF], 0, [(0, 0)]) := by decide

/-- The premise of the MASK, NET and BCAST statements at prefix lengths 0, 25 and `T`. -/
theorem test_witness_ValidSource :
    ((unitOf .v4 [0xC0A8006519] true true).read 0).Valid ∧ ((unitOf .v4 [0xC0A8006500] true true).read 0).Valid ∧
    ((unitOf .v4 [0, 0, 0, 0xC0A8006520] false true).read 3).Valid ∧ ((unitOf .v6 [0x80] true true).read 0).Valid ∧
    (valueOf .v4 0xC0A8006519).leadingBit 0 = true ∧ (valueOf .v4 0xC0A8006519).leadingBit 31 = true ∧
    (valueOf .v4 0xC0A8006519).leadingBit 24 = false := by decide

theorem test_witness_RdstReturnsTheStatus :
    (fieldsOf (cmdOf .v4 0xB400 0).cmd).op = 0xB ∧ (cmdOf .v4 0xB400 0).cmd ≠ 0xB000 := by decide

theorem test_witness_MaskEngineHasNoValueBeyondTheFamily :
    ¬ ((unitOf .v4 [0x21] false false).read 0).Valid ∧ ¬ ((unitOf .v6 [0, 0x81] false false).read 1).Valid := by decide

theorem test_witness_BitwiseLaws :
    (valueOf .v4 0xC0A8006519).e[0] = (valueOf .v4 0xC000000008).e[0] ∧
    (valueOf .v4 0xFF00000000).e[0] = (valueOf .v4 0xFF01020320).e[0] ∧ (valueOf .v4 0xC0A8006520).Valid := by decide

/-- Every clause of R73: `rem` at, inside and past a lane; elements before, at and after `plen / W`. -/
theorem test_witness_NetmaskClosedForm :
    (valueOf .v4 0xC0A800680B).Valid ∧ (valueOf .v4 0x10).Valid ∧
    ((valueOf .v4 0xC0A800680B).netmaskF.map fun m => m.e.toList) = some [255, 224, 0, 0] ∧
    ((valueOf .v4 0x10).netmaskF.map fun m => m.e.toList) = some [255, 255, 0, 0] ∧
    Family.v4.T - 16 = (4 - 1 - 1) * 8 ∧ Family.v4.T - 16 = (4 - 1 - 2) * 8 + 8 ∧ 11 / 8 = 1 ∧ 11 % 8 ≠ 0 ∧
    16 / 8 = 2 ∧ 16 % 8 = 0 := by decide

/-- R74's clauses: prefix lengths 0, `T`, a multiple of `W`, `T − 1` and 1; rows of 3.1. -/
theorem test_witness_NetmaskProperties :
    (valueOf .v4 0xC0A8006519).plen = (valueOf .v4 0x0A00000119).plen ∧
    ((valueOf .v4 0x00).netmaskF.map fun m => m.e.toList) = some [0, 0, 0, 0] ∧
    ((valueOf .v4 0x20).netmaskF.map fun m => m.e.toList) = some [255, 255, 255, 255] ∧
    ((valueOf .v4 0x18).netmaskF.map fun m => m.e.toList) = some [255, 255, 255, 0] ∧
    ((valueOf .v4 0x1F).netmaskF.map fun m => m.e.toList) = some [255, 255, 255, 254] ∧
    ((valueOf .v4 0x01).netmaskF.map fun m => m.e.toList) = some [128, 0, 0, 0] ∧
    ((valueOf .v4 0x19).netmaskF.map fun m => (m.leadingBit 23, m.leadingBit 24)) = some (true, true) := by decide

theorem test_witness_NetworkAndBroadcast :
    (valueOf .v4 0xC0A8006519).Valid ∧ (valueOf .v6 0xFE80000000000000000000000000000180).Valid ∧
    ((valueOf .v4 0xC0A8006519).networkF.map fun n => n.pack.toNat) = some 0xC0A8000019 ∧
    ((valueOf .v4 0xC0A8006519).broadcastF.map fun n => n.pack.toNat) = some 0xC0A8007F19 := by decide

theorem test_witness_DerivationLaws :
    (1 : RegNum) ≠ 0 ∧ ((unitOf .v4 [0xC0A800680B] false false).read 0).Valid ∧
    ((valueOf .v4 0xC0A800680B).netmaskF.map fun m => (m.leadingBit 10, m.leadingBit 11)) = some (true, false) := by decide

theorem test_witness_ReadsShowTheWholeState :
    ∀ i ∈ [Instr.readOut 0, .readOut 1, .readOut 2, .readOut 3, .rdst], ∃ u' v' p' q',
      exec i (State.mk .v4 (unitOf .v4 [1, 2, 3, 4] true false) (Port.idle .v4)) = .next (State.mk .v4 u' p') ∧
      exec i (State.mk .v4 (unitOf .v4 [1, 2, 3, 4] true false) (Port.idle .v4)) = .next (State.mk .v4 v' q') ∧
      p'.responses = q'.responses := by
  intro i hi
  simp only [List.mem_cons, List.not_mem_nil, or_false] at hi
  rcases hi with rfl | rfl | rfl | rfl | rfl <;> exact ⟨_, _, _, _, rfl, rfl, rfl⟩

theorem test_witness_ReadingHasNoSideEffect :
    (∃ ra, Instr.readOut 2 = .readOut ra) ∧ Instr.rdst = .rdst := by decide

theorem test_witness_CommandsInPlaceOfPseudoInstructions :
    Instr.mov 3 3 ∈ [Instr.rdst, .readOut 3, .mov 3 3] ∧ ((unitOf .v4 [0xAC1000000C] false false).read 0).Valid := by decide

/-- Prefix lengths at both edges of both clauses. -/
theorem test_witness_AssembledLdLoadsItsLiteral :
    [192, 168, 0, 255].length = Family.v4.N ∧ (∀ x ∈ [192, 168, 0, 255], x < 2 ^ Family.v4.W) ∧ 32 ≤ Family.v4.T ∧
    Family.v4.T < 33 ∧ 255 < 256 := by decide

theorem test_witness_AssemblerRefusesWhatDoesNotFit :
    assemble .v4 ⟨.ld 0, some (.elements [1, 2, 3] 0)⟩ = .error .elementCount ∧
    assemble .v4 ⟨.ld 0, some (.elements [1, 2, 3, 256] 0)⟩ = .error .elementRange ∧
    assemble .v4 ⟨.ld 0, some (.dotted [1, 2, 3, 4] 256)⟩ = .error .prefixRange := by decide

/-- P1, lines 1 and 2. -/
theorem test_witness_AssemblerEmitsOneWordPerLine :
    assembleProgram .v4 [⟨.ld 0, some (.hex 0xC0A8006519)⟩, ⟨.mask 1 0, none⟩] =
      .ok [cmdOf .v4 0x1000 0xC0A8006519, cmdOf .v4 0x8400 0] ∧
    2 ^ 40 - 1 < 2 ^ Family.v4.dataW ∧ assemble .v4 ⟨.ld 0, some (.hex (2 ^ 40))⟩ = .error .hexRange := by decide

end Sys2Proof.Tests
end

section
/-! The reset values (`spec/10_state.md` R27): the remaining views of the zero address value and of a clear STATUS. -/

namespace Sys2Proof.Machine

@[simp] theorem AddressValue.zero_flat (F : Family) : (AddressValue.zero F).flat = 0 := by
  apply BitVec.eq_of_getLsbD_eq
  intro j hj
  simp [AddressValue.flat_getLsbD _ j hj]

@[simp] theorem AddressValue.zero_pack (F : Family) : (AddressValue.zero F).pack = 0 := by
  rw [AddressValue.pack, AddressValue.zero_flat, AddressValue.zero_plen]
  exact BitVec.zero_append_zero

@[simp] theorem Status.clear_word : Status.clear.word = 0 := by decide

/-- Every register of a reset unit, in each of its views. -/
theorem UnitState.reset_register (F : Family) (r : RegNum) :
    (∀ i : Fin F.N, ((UnitState.reset F).read r).e[i] = 0) ∧ ((UnitState.reset F).read r).plen = 0 ∧
      ((UnitState.reset F).read r).pack = 0 := by
  rw [UnitState.reset_read]
  exact ⟨fun i => AddressValue.zero_e F i i.isLt, AddressValue.zero_plen F, AddressValue.zero_pack F⟩

/-- Settles O8: the registers of a reset unit read as the zero address value, and its STATUS is the clear one. -/
theorem resetValues : Obligations.ResetValues := by
  unfold Obligations.ResetValues
  constructor
  · intro F r
    exact UnitState.reset_register F r
  · intro F
    rw [State.resetOf_unit, UnitState.reset_STATUS]
    exact ⟨Status.clear_word, rfl⟩

end Sys2Proof.Machine
end

section
/-! The data port (`spec/20_memory.md` R32, R36): `pack` and `unpack` are each other's inverse, and the commands that
read leave the unit as it is. -/

namespace Sys2Proof.Machine

variable {F : Family}

@[simp] theorem unpack_plen (v : BitVec F.dataW) : (unpack v).plen = v.extractLsb' 0 8 := rfl

@[simp] theorem unpack_e (v : BitVec F.dataW) (i : Nat) (hi : i < F.N) :
    (unpack v).e[i] = v.extractLsb' (8 + (F.N - 1 - i) * F.W) F.W := by
  simp [unpack]

/-- A field of `pack(a)` above the prefix length is a field of `flat(a)`. -/
theorem AddressValue.pack_extractLsb' (a : AddressValue F) (start len : Nat) :
    a.pack.extractLsb' (8 + start) len = a.flat.extractLsb' start len := by
  rw [AddressValue.pack, BitVec.extractLsb'_append_eq_of_le (Nat.le_add_right 8 start), Nat.add_sub_cancel_left]

/-- Element `i` of an address is the field of `pack(a)` that R32 gives it. -/
theorem AddressValue.pack_element (a : AddressValue F) (i : Fin F.N) :
    a.pack.extractLsb' (8 + (F.N - 1 - i) * F.W) F.W = a.e[i] := by
  rw [a.pack_extractLsb', a.flat_element i]

@[simp] theorem unpack_pack (a : AddressValue F) : unpack a.pack = a := by
  refine AddressValue.ext_e (fun i hi => ?_) (pack_prefix a)
  rw [unpack_e _ i hi]
  exact a.pack_element ⟨i, hi⟩

@[simp] theorem pack_unpack (v : BitVec F.dataW) : (unpack v).pack = v := by
  rw [AddressValue.pack, flat_unpack, unpack_plen]
  exact BitVec.extractLsb'_append_extractLsb'

/-- R32's first example, 192.168.0.101/25. -/
theorem pack_example_v4 :
    (⟨#v[192, 168, 0, 101], 25⟩ : AddressValue .v4).pack = BitVec.ofNat _ 0xC0A8006519 := by decide

/-- The `pack` of scenario 6: 2001:db8:face::/64. -/
theorem pack_example_v6 :
    (⟨#v[0x2001, 0x0db8, 0xface, 0, 0, 0, 0, 0], 64⟩ : AddressValue .v6).pack =
      BitVec.ofNat _ 0x20010DB8FACE0000000000000000000040 := by decide

/-- Settles O45: each element and the prefix length are their own fields of `pack(a)`, so `unpack` recovers them. -/
theorem packLayout : Obligations.PackLayout := by
  unfold Obligations.PackLayout
  refine ⟨fun F a => ?_, fun F v => pack_unpack v, by decide, by decide, pack_example_v4, pack_example_v6⟩
  exact ⟨unpack_pack a, pack_prefix a, a.pack_element⟩

theorem exec_readOut (u : UnitState F) (p : Port F) (ra : RegNum) :
    exec (.readOut ra) ⟨F, u, p⟩ = .next ⟨F, u, p.respond okCode (u.read ra).pack⟩ := rfl

theorem exec_rdst (u : UnitState F) (p : Port F) :
    exec .rdst ⟨F, u, p⟩ = .next ⟨F, u, p.respond okCode (zextData u.STATUS.word)⟩ := rfl

/-- RD and RDST answer with data that the unit alone determines, whatever the port holds, and keep the unit (R36). -/
theorem exec_reading (u : UnitState F) (i : Instr) (hi : (∃ ra, i = .readOut ra) ∨ i = .rdst) :
    ∃ d, ∀ p : Port F, exec i ⟨F, u, p⟩ = .next ⟨F, u, p.respond okCode d⟩ := by
  obtain ⟨ra, rfl⟩ | rfl := hi
  · exact ⟨_, fun p => exec_readOut u p ra⟩
  · exact ⟨_, fun p => exec_rdst u p⟩

/-- Settles O47: the read data depends on the unit only, and the first reading keeps the unit. -/
theorem readingHasNoSideEffect : Obligations.ReadingHasNoSideEffect := by
  unfold Obligations.ReadingHasNoSideEffect
  intro F u p i hi
  obtain ⟨d, hd⟩ := exec_reading u i hi
  refine ⟨_, _, d, hd p, hd _, rfl, ?_⟩
  rw [Port.respond_responses, Port.respond_responses, List.append_assoc]
  rfl

end Sys2Proof.Machine
end

section
/-! Command words (`spec/30_encoding.md` R43 to R48): a word is legal when its fields are well-formed, the decoder reads
a command whose fields are the word's, the match and mask of a row say what the row's opcode and uses say, and the legal
words are listed from the uses of each opcode. -/

namespace Sys2Proof

theorem requireClear_eq_ok (clear : Bool) (c i : Instr) : requireClear clear c = .ok i ↔ clear = true ∧ c = i := by
  cases clear <;> simp [requireClear]

/-- The decoder reads a command whose fields are the ones it was given. -/
theorem fields_of_decodeFields (f : Fields) (i : Instr) (hz : f.zero = 0) (h : decodeFields f = .ok i) :
    i.fields = f := by
  obtain ⟨op, rd, ra, rb, zero⟩ := f
  obtain ⟨n, hop⟩ : ∃ n, op.toNat = n := ⟨_, rfl⟩
  have hn : BitVec.ofNat 4 n = op := by simp [← hop]
  cases hz
  simp only [decodeFields, hop] at h
  split at h
  case h_12 => cases h -- a reserved opcode
  case h_5 | h_6 | h_7 => -- the three-operand commands leave no field to check
    cases h
    simp [Instr.fields, ← hn]
  all_goals
    obtain ⟨hclear, rfl⟩ := (requireClear_eq_ok _ _ _).mp h
    simp_all [Instr.fields]

/-- The decoder reads a command from well-formed fields. -/
theorem exists_decodeFields (f : Fields) (h : f.WellFormed) : ∃ i, decodeFields f = .ok i := by
  simp only [Fields.WellFormed, Fields.wellFormed, usesOf, Bool.and_eq_true] at h
  unfold decodeFields
  split
  case h_12 => simp_all -- a reserved opcode has no uses
  all_goals simp_all [requireClear_eq_ok]

/-- The lemmas of `Laws.WordForm`, for every command at once. -/
theorem wordForm (i : Instr) : Laws.WordForm.Statement i := by
  cases i with
  | ld rd => exact Laws.WordForm.ld rd
  | readOut ra => exact Laws.WordForm.readOut ra
  | mov rd ra => exact Laws.WordForm.mov rd ra
  | not rd ra => exact Laws.WordForm.not rd ra
  | and rd ra rb => exact Laws.WordForm.and rd ra rb
  | or rd ra rb => exact Laws.WordForm.or rd ra rb
  | xor rd ra rb => exact Laws.WordForm.xor rd ra rb
  | mask rd ra => exact Laws.WordForm.mask rd ra
  | net rd ra => exact Laws.WordForm.net rd ra
  | bcast rd ra => exact Laws.WordForm.bcast rd ra
  | rdst => exact Laws.WordForm.rdst

/-- The fields of a word the decoder accepts are those of the command it reads. -/
theorem fieldsOf_of_decode {cmd : BitVec 16} {i : Instr} (h : decode cmd = .ok i) : fieldsOf cmd = i.fields := by
  by_cases hz : (fieldsOf cmd).zero = 0
  · rw [decode, if_pos hz] at h
    exact (fields_of_decodeFields _ i hz h).symm
  · rw [decode, if_neg hz] at h
    cases h

/-- A word is legal exactly when its fields are well-formed (R46 to R48). -/
theorem exists_decode_iff (cmd : BitVec 16) : (∃ i, decode cmd = .ok i) ↔ (fieldsOf cmd).WellFormed := by
  constructor
  · rintro ⟨i, h⟩
    rw [fieldsOf_of_decode h]
    exact (wordForm i).1
  · intro h
    obtain ⟨hz, -⟩ := (Fields.wellFormed_iff _).mp h
    rw [decode, if_pos hz]
    exact exists_decodeFields _ h

/-- The checks on the fields when the opcode is defined, with its uses (R46, R47). -/
theorem Fields.wellFormed_iff_of_uses {f : Fields} {u : Uses} (hu : usesOf f.op = some u) :
    f.WellFormed ↔ f.zero = 0 ∧ (u.rd ∨ f.rd = 0) ∧ (u.ra ∨ f.ra = 0) ∧ (u.rb ∨ f.rb = 0) := by
  simp [Fields.WellFormed, Fields.wellFormed, hu, and_assoc]

/-! ### The opcode map -/

/-- The bits a mask checks in a register field: those of a field the command does not use. -/
def checkedBits (used : Bool) : BitVec 2 := if used then 0 else 3

theorem and_checkedBits (used : Bool) (b : BitVec 2) : b &&& checkedBits used = 0 ↔ (used ∨ b = 0) := by
  revert used b; decide

/-- The fields of a bitwise and are the bitwise ands of the fields. -/
theorem fieldsOf_and (x y : BitVec 16) :
    fieldsOf (x &&& y) =
      ⟨(fieldsOf x).op &&& (fieldsOf y).op, (fieldsOf x).rd &&& (fieldsOf y).rd, (fieldsOf x).ra &&& (fieldsOf y).ra,
        (fieldsOf x).rb &&& (fieldsOf y).rb, (fieldsOf x).zero &&& (fieldsOf y).zero⟩ := by
  simp only [fieldsOf, BitVec.extractLsb'_and]

theorem fieldsOf_injective : Function.Injective fieldsOf := Function.LeftInverse.injective fieldsOf_word

/-- The opcode a row of the map is for. -/
def OpcodeRow.op (row : OpcodeRow) : BitVec 4 := (fieldsOf row.matchWord).op

/-- The match and mask columns of R45 say what its opcode and "uses" columns say. -/
theorem opcodeMap_columns : ∀ row ∈ opcodeMap, ∃ u, usesOf row.op = some u ∧
    fieldsOf row.matchWord = ⟨row.op, 0, 0, 0, 0⟩ ∧
    fieldsOf row.maskWord = ⟨.allOnes 4, checkedBits u.rd, checkedBits u.ra, checkedBits u.rb, .allOnes 6⟩ := by
  simp only [opcodeMap, List.forall_mem_cons, List.not_mem_nil, false_implies, implies_true, and_true]
  refine ⟨?_, ?_, ?_, ?_, ?_, ?_, ?_, ?_, ?_, ?_, ?_⟩ <;> exact ⟨_, rfl, by decide⟩

/-- A row selects the legal words of its opcode and no others. -/
theorem OpcodeRow.selects_iff {row : OpcodeRow} (hrow : row ∈ opcodeMap) (cmd : BitVec 16) :
    row.selects cmd = true ↔ (fieldsOf cmd).op = row.op ∧ (fieldsOf cmd).WellFormed := by
  obtain ⟨u, hu, hmatch, hmask⟩ := opcodeMap_columns row hrow
  rw [OpcodeRow.selects, beq_iff_eq, ← fieldsOf_injective.eq_iff, fieldsOf_and, hmatch, hmask]
  simp only [Fields.mk.injEq, BitVec.and_allOnes, and_checkedBits]
  refine and_congr_right fun hop => ?_
  rw [Fields.wellFormed_iff_of_uses (hop ▸ hu)]
  tauto

/-- Every opcode that is not reserved has its row. -/
theorem exists_row_of_defined (op : BitVec 4) (h : (usesOf op).isSome) : ∃ row ∈ opcodeMap, row.op = op := by
  revert op; decide

/-- A row has the mnemonic of a command exactly when it has the opcode of its word. -/
theorem mnemonic_eq_iff {row : OpcodeRow} (hrow : row ∈ opcodeMap) (i : Instr) :
    row.mnemonic = i.mnemonic ↔ i.fields.op = row.op := by
  revert row
  cases i <;> (simp only [Instr.mnemonic, Instr.fields]; decide)

/-- Settles O3: a row selects the well-formed words of its opcode, and its mnemonic is that of the opcode's command. -/
theorem matchAndMaskSelectTheCommand : Obligations.MatchAndMaskSelectTheCommand := by
  unfold Obligations.MatchAndMaskSelectTheCommand
  refine fun cmd => ⟨?_, fun i hi row hrow => ?_⟩
  · rw [exists_decode_iff]
    constructor
    · intro h
      obtain ⟨-, hop, -⟩ := (Fields.wellFormed_iff _).mp h
      obtain ⟨row, hrow, heq⟩ := exists_row_of_defined _ hop
      exact ⟨row, hrow, (OpcodeRow.selects_iff hrow cmd).mpr ⟨heq.symm, h⟩⟩
    · rintro ⟨row, hrow, hsel⟩
      exact ((OpcodeRow.selects_iff hrow cmd).mp hsel).2
  · rw [OpcodeRow.selects_iff hrow, mnemonic_eq_iff hrow, fieldsOf_of_decode hi]
    exact and_iff_left (wordForm i).1

/-! ### The legal words -/

/-- Reading the fields back undoes writing them (R43). -/
@[simp] theorem fieldsOf_of_word (f : Fields) : fieldsOf f.word = f := by
  have above : ∀ {v w : Nat} (x : BitVec v) (y : BitVec w) (start len : Nat),
      (x ++ y).extractLsb' (start + w) len = x.extractLsb' start len := by
    intro v w x y start len
    rw [BitVec.extractLsb'_append_eq_of_le (Nat.le_add_left _ _), Nat.add_sub_cancel]
  obtain ⟨op, rd, ra, rb, zero⟩ := f
  simp only [fieldsOf, Fields.word, Fields.mk.injEq]
  refine ⟨?_, ?_, ?_, ?_, BitVec.extractLsb'_append_eq_right⟩
  · rw [above _ zero 6, above _ rb 4, above _ ra 2, BitVec.extractLsb'_append_eq_left]
  · rw [above _ zero 4, above _ rb 2, above _ ra 0, BitVec.extractLsb'_append_eq_right]
  · rw [above _ zero 2, above _ rb 0, BitVec.extractLsb'_append_eq_right]
  · rw [above _ zero 0, BitVec.extractLsb'_append_eq_right]

theorem word_injective : Function.Injective Fields.word := Function.LeftInverse.injective fieldsOf_of_word

/-- The values R46 leaves to a register field. -/
def fieldValues (used : Bool) : List (BitVec 2) := if used then [0, 1, 2, 3] else [0]

theorem mem_fieldValues (used : Bool) (b : BitVec 2) : b ∈ fieldValues used ↔ (used ∨ b = 0) := by
  revert used b; decide

theorem nodup_fieldValues (used : Bool) : (fieldValues used).Nodup := by
  revert used; decide

/-- The well-formed fields with opcode `op` (R46 to R48). -/
def legalFields (op : BitVec 4) : List Fields :=
  match usesOf op with
  | none => []
  | some u => (fieldValues u.rd ×ˢ fieldValues u.ra ×ˢ fieldValues u.rb).map fun r => ⟨op, r.1, r.2.1, r.2.2, 0⟩

theorem mem_legalFields (op : BitVec 4) (f : Fields) : f ∈ legalFields op ↔ f.op = op ∧ f.WellFormed := by
  cases hu : usesOf op with
  | none =>
    simp only [legalFields, hu, List.not_mem_nil, false_iff]
    rintro ⟨rfl, hf⟩
    simp [Fields.WellFormed, Fields.wellFormed, hu] at hf
  | some u =>
    obtain ⟨op', rd, ra, rb, zero⟩ := f
    simp only [legalFields, hu, List.mem_map, Prod.exists, List.mem_product, Fields.mk.injEq, mem_fieldValues]
    constructor
    · rintro ⟨_, _, _, ⟨hrd, hra, hrb⟩, rfl, rfl, rfl, rfl, rfl⟩
      exact ⟨rfl, (Fields.wellFormed_iff_of_uses hu).mpr ⟨rfl, hrd, hra, hrb⟩⟩
    · rintro ⟨rfl, hf⟩
      obtain ⟨hz, hrd, hra, hrb⟩ := (Fields.wellFormed_iff_of_uses hu).mp hf
      exact ⟨rd, ra, rb, ⟨hrd, hra, hrb⟩, rfl, rfl, rfl, rfl, hz.symm⟩

theorem nodup_legalFields (op : BitVec 4) : (legalFields op).Nodup := by
  unfold legalFields
  split
  · exact List.nodup_nil
  · refine List.Nodup.map (fun r r' h => ?_)
      ((nodup_fieldValues _).product ((nodup_fieldValues _).product (nodup_fieldValues _)))
    simp_all [Prod.ext_iff]

/-- Every opcode, the reserved ones among them. -/
def opcodes : List (BitVec 4) := (List.range 16).map (BitVec.ofNat 4)

theorem mem_opcodes (op : BitVec 4) : op ∈ opcodes := by revert op; decide

/-- The legal command words, by opcode (R48). -/
def legalWords : List (BitVec 16) := (opcodes.flatMap legalFields).map Fields.word

theorem mem_legalWords (cmd : BitVec 16) : cmd ∈ legalWords ↔ (fieldsOf cmd).WellFormed := by
  simp only [legalWords, List.mem_map, List.mem_flatMap, mem_legalFields]
  constructor
  · rintro ⟨f, ⟨_, -, -, hf⟩, rfl⟩
    rwa [fieldsOf_of_word]
  · intro h
    exact ⟨fieldsOf cmd, ⟨_, mem_opcodes _, rfl, h⟩, fieldsOf_word cmd⟩

theorem nodup_legalWords : legalWords.Nodup := by
  refine List.Nodup.map word_injective (List.nodup_flatMap.mpr ⟨fun op _ => nodup_legalFields op, ?_⟩)
  have hne : opcodes.Nodup := by decide
  refine hne.imp fun {a b} hab => ?_
  rw [Function.onFun, List.disjoint_left]
  intro f hfa hfb
  exact hab (((mem_legalFields a f).mp hfa).1.symm.trans ((mem_legalFields b f).mp hfb).1)

theorem length_legalWords : legalWords.length = 281 := by
  rw [legalWords, List.length_map, List.length_flatMap]
  decide

/-- The legal words with opcode `op` are as many as the well-formed fields with it. -/
theorem countP_legalWords (op : BitVec 4) :
    legalWords.countP (fun cmd => cmd.extractLsb' 12 4 == op) = (legalFields op).length := by
  rw [List.countP_eq_length_filter, ← List.length_map Fields.word]
  refine List.Perm.length_eq ?_
  rw [List.perm_ext_iff_of_nodup (nodup_legalWords.filter _) ((nodup_legalFields op).map word_injective)]
  intro cmd
  simp only [List.mem_filter, mem_legalWords, beq_iff_eq, List.mem_map, mem_legalFields]
  constructor
  · rintro ⟨hcmd, hop⟩
    exact ⟨fieldsOf cmd, ⟨hop, hcmd⟩, fieldsOf_word cmd⟩
  · rintro ⟨f, ⟨rfl, hf⟩, rfl⟩
    have hop : (fieldsOf f.word).op = f.op := by rw [fieldsOf_of_word]
    exact ⟨by rwa [fieldsOf_of_word], hop⟩

end Sys2Proof

namespace Sys2Proof.Machine

variable {F : Family}

/-- A word that is not legal is answered with `(1, 0)`, whatever the state (R48). -/
theorem step_of_not_wellFormed (u : UnitState F) (p : Port F) (c : Command F) (rest : List (Event F))
    (h : ¬ (fieldsOf c.cmd).WellFormed) :
    ∃ u' p', step ⟨F, u, { p with pending := .command c :: rest }⟩ = .next ⟨F, u', p'⟩ ∧
      p'.responses = p.responses ++ [⟨1, 0⟩] := by
  cases hd : decode c.cmd with
  | ok i => exact absurd ((exists_decode_iff _).mp ⟨i, hd⟩) h
  | error e => exact ⟨_, _, step_illegal u _ c rest e rfl hd, rfl⟩

/-- Settles O5: the legal words are the words of the well-formed fields, listed by opcode. -/
theorem exactlyTheLegalWords : Obligations.ExactlyTheLegalWords := by
  unfold Obligations.ExactlyTheLegalWords
  refine ⟨legalWords, nodup_legalWords, length_legalWords, fun cmd => ?_, ?_, fun cmd hcmd => ?_, ?_, ?_,
    fun F u p c rest hc => ?_⟩
  · rw [mem_legalWords, exists_decode_iff]
  · simp only [countP_legalWords]
    decide
  · have reserved : ∀ op ∈ [0x0#4, 0xC#4, 0xD#4, 0xE#4, 0xF#4], ¬ (usesOf op).isSome := by decide
    obtain ⟨-, hop, -⟩ := (Fields.wellFormed_iff _).mp ((mem_legalWords cmd).mp hcmd)
    exact fun hres => reserved _ hres hop
  · rw [mem_legalWords]; decide
  · rw [mem_legalWords]; decide
  · exact step_of_not_wellFormed u p c rest (mt (mem_legalWords _).mpr hc)

end Sys2Proof.Machine
end

section
/-! Responses and the payload (`spec/30_encoding.md` R50 to R53): what each command answers, and that the port enters a
command other than LD by its list of responses only. -/

namespace Sys2Proof.Machine

variable {F : Family}

theorem unpack_injective : Function.Injective (unpack (F := F)) := Function.LeftInverse.injective pack_unpack

/-- The read data of a command that answers with code 0 (R53). -/
def readData (i : Instr) (u : UnitState F) : BitVec F.dataW :=
  match i with
  | .readOut ra => (u.read ra).pack
  | .rdst => zextData u.STATUS.word
  | _ => 0

theorem readData_eq_zero (i : Instr) (u : UnitState F) (hra : ∀ ra, i ≠ .readOut ra) (hst : i ≠ .rdst) :
    readData i u = 0 := by
  cases i with
  | readOut ra => exact absurd rfl (hra ra)
  | rdst => exact absurd rfl hst
  | _ => rfl

/-- A command other than LD reads nothing of the port: it refuses in every port, or it answers every port with code 0
and the same read data and leaves the same unit (R50, R53). -/
theorem exec_of_ne_ld (i : Instr) (u : UnitState F) (hi : ∀ rd, i ≠ .ld rd) :
    (∃ r, ∀ p : Port F, exec i ⟨F, u, p⟩ = .refused r) ∨
      ∃ u', ∀ p : Port F, exec i ⟨F, u, p⟩ = .next ⟨F, u', p.respond okCode (readData i u)⟩ := by
  have writes : ∀ (rd : RegNum) (o : Option (AddressValue F)),
      (∃ r, ∀ p : Port F, State.completeWith ⟨F, u, p⟩ rd o = .refused r) ∨
        ∃ u', ∀ p : Port F, State.completeWith ⟨F, u, p⟩ rd o = .next ⟨F, u', p.respond okCode 0⟩ := by
    intro rd o
    cases o with
    | none => exact .inl ⟨_, fun _ => rfl⟩
    | some v => exact .inr ⟨u.write rd v, fun _ => rfl⟩
  cases i with
  | ld rd => exact absurd rfl (hi rd)
  | readOut ra => exact .inr ⟨u, fun p => exec_readOut u p ra⟩
  | rdst => exact .inr ⟨u, exec_rdst u⟩
  | mov rd ra => exact writes rd (some (u.read ra))
  | not rd ra => exact writes rd (some (u.read ra).notF)
  | and rd ra rb => exact writes rd (some ((u.read ra).andF (u.read rb)))
  | or rd ra rb => exact writes rd (some ((u.read ra).orF (u.read rb)))
  | xor rd ra rb => exact writes rd (some ((u.read ra).xorF (u.read rb)))
  | mask rd ra => exact writes rd (u.read ra).netmaskF
  | net rd ra => exact writes rd (u.read ra).networkF
  | bcast rd ra => exact writes rd (u.read ra).broadcastF

/-- A command that answers a next state is an LD out of range, which raised its fault, or it answered with code 0 and
the read data of R53. -/
theorem exec_next_response (i : Instr) (u : UnitState F) (p : Port F) (t : State) (h : exec i ⟨F, u, p⟩ = .next t) :
    (∃ rd, i = .ld rd ∧ ¬ (unpack p.wdata).Valid ∧
        t = ⟨F, u.setFlag .invalidPrefixLength, p.respond FaultKind.invalidPrefixLength.code 0⟩) ∨
      (∀ rd, i = .ld rd → (unpack p.wdata).Valid) ∧ ∃ u', t = ⟨F, u', p.respond okCode (readData i u)⟩ := by
  by_cases hld : ∃ rd, i = .ld rd
  · obtain ⟨rd, rfl⟩ := hld
    by_cases hv : (unpack p.wdata).Valid
    · rw [execLd_valid u p rd hv] at h
      exact .inr ⟨fun _ _ => hv, _, (Host.Outcome.next.inj h).symm⟩
    · rw [execLd_invalid u p rd hv] at h
      exact .inl ⟨rd, rfl, hv, (Host.Outcome.next.inj h).symm⟩
  · rw [not_exists] at hld
    obtain ⟨r, hr⟩ | ⟨u', hu'⟩ := exec_of_ne_ld i u hld
    · rw [hr p] at h
      cases h
    · rw [hu' p] at h
      exact .inr ⟨fun rd hrd => absurd hrd (hld rd), u', (Host.Outcome.next.inj h).symm⟩

/-- Settles O24: `pack` undoes `unpack`, LD writes the unpacked payload, and no other command reads the port. -/
theorem payloadIsReadByLdOnly : Obligations.PayloadIsReadByLdOnly := by
  unfold Obligations.PayloadIsReadByLdOnly
  refine ⟨fun F v => ⟨fun i => unpack_e v i i.isLt, unpack_plen v, fun _ h => unpack_injective h⟩,
    fun F u p rd hv => ⟨_, _, execLd_valid u p rd hv, UnitState.read_write_self u rd _⟩, fun i F u p w hi => ?_⟩
  obtain ⟨r, hr⟩ | ⟨u', hu'⟩ := exec_of_ne_ld i u hi
  · exact .inl ⟨r, hr p, hr _⟩
  · exact .inr ⟨u', _, _, hu' p, hu' _, rfl⟩

/-- Settles O20: the word is illegal, or its command is an LD out of range, or the command answers its read data. -/
theorem oneResponsePerCommand : Obligations.OneResponsePerCommand := by
  unfold Obligations.OneResponsePerCommand
  intro F u p c rest t h
  cases hd : decode c.cmd with
  | error e =>
    rw [step_illegal u _ c rest e rfl hd] at h
    cases h
    exact ⟨_, _, _, rfl, rfl, .inl ⟨⟨e, rfl⟩, rfl⟩⟩
  | ok i =>
    rw [step_command u _ c rest i rfl hd] at h
    obtain ⟨rd, rfl, hv, rfl⟩ | ⟨hv, u', rfl⟩ := exec_next_response i u _ t h
    · exact ⟨_, _, _, rfl, rfl, .inr (.inl ⟨⟨rd, rfl⟩, Nat.lt_of_not_le hv, rfl⟩)⟩
    · refine ⟨u', _, _, rfl, rfl, .inr (.inr ⟨i, rfl, hv, rfl, ?_, ?_, readData_eq_zero i u⟩)⟩
      · rintro ra rfl
        rfl
      · rintro rfl
        rw [exec_rdst] at h
        cases h
        exact ⟨rfl, rfl⟩

end Sys2Proof.Machine
end

section
/-! The shape of every command's statement: its word and no other (`spec/30_encoding.md` R54), the illegal words of its
opcode (R46, R47), and the frame of a written register and of a response (`spec/10_state.md` R20). -/

namespace Sys2Proof

/-- The decoder reads back the command an encoder wrote (R54). -/
@[simp] theorem decode_encode (i : Instr) : decode (encode i) = .ok i := by
  obtain ⟨-, hfields⟩ := wordForm i
  simp only [decode, hfields]
  cases i <;> rfl

/-- The decoder is the inverse of the encoder on legal commands (R54). -/
theorem decode_eq_ok_iff (cmd : BitVec 16) (i : Instr) : decode cmd = .ok i ↔ cmd = encode i := by
  constructor
  · intro h
    rw [encode, ← fieldsOf_of_decode h, fieldsOf_word]
  · rintro rfl
    exact decode_encode i

/-- A command's word is the one the encoder writes. -/
theorem isWordOf_of_encode {i : Instr} {w : BitVec 16} (h : encode i = w) : IsWordOf i w := by
  intro cmd
  rw [decode_eq_ok_iff, h]

/-- A word is illegal exactly when its fields are not well-formed (R46 to R48). -/
theorem exists_decode_error_iff (cmd : BitVec 16) : (∃ e, decode cmd = .error e) ↔ ¬ (fieldsOf cmd).WellFormed := by
  rw [← exists_decode_iff]
  cases decode cmd <;> simp

/-- The illegal words of an opcode that is not reserved: those with `zero` or a field the command does not use set
(R46, R47). -/
theorem illegalIff_of_uses {op : BitVec 4} {u : Uses} {bad : Fields → Prop} (hu : usesOf op = some u)
    (hbad : ∀ f, bad f ↔ ¬ (f.zero = 0 ∧ (u.rd ∨ f.rd = 0) ∧ (u.ra ∨ f.ra = 0) ∧ (u.rb ∨ f.rb = 0))) :
    IllegalIff op bad := by
  rintro cmd rfl
  rw [exists_decode_error_iff, Fields.wellFormed_iff_of_uses hu, hbad]

/-- A command with a destination and one source leaves `rb` and `zero` to be checked: MOV, NOT, MASK, NET, BCAST. -/
theorem illegalIff_of_uses_rd_ra {op : BitVec 4} (hu : usesOf op = some ⟨true, true, false⟩) :
    IllegalIff op (fun f => f.rb ≠ 0 ∨ f.zero ≠ 0) :=
  illegalIff_of_uses hu fun f => by simp only [true_or, Bool.false_eq_true, false_or]; tauto

end Sys2Proof

namespace Sys2Proof.Machine

variable {F : Family}

/-- Writing a register leaves the other registers and STATUS as they are. -/
theorem UnitState.sameBut_write (u : UnitState F) (rd : RegNum) (v : AddressValue F) : u.SameBut (u.write rd v) rd :=
  ⟨fun _ h => u.read_write_ne v h, u.write_STATUS rd v⟩

/-- `respond` gives its one response and touches nothing else of the port. -/
theorem Port.answered_respond (p : Port F) (err : BitVec 2) (d : BitVec F.dataW) :
    p.Answered (p.respond err d) err d :=
  ⟨p.respond_wdata err d, p.respond_pending err d, p.respond_responses err d⟩

end Sys2Proof.Machine
end

section
/-! The transfer commands LD, RD and MOV (`spec/40_transfer.md` R59 to R61). -/

namespace Sys2Proof

theorem isWordOf_ld (rd : RegNum) : IsWordOf (.ld rd) (0x1000#16 ||| BitVec.ofNat 16 rd <<< 10) :=
  isWordOf_of_encode (by revert rd; decide)

theorem isWordOf_readOut (ra : RegNum) : IsWordOf (.readOut ra) (0x2000#16 ||| BitVec.ofNat 16 ra <<< 8) :=
  isWordOf_of_encode (by revert ra; decide)

theorem isWordOf_mov (rd ra : RegNum) :
    IsWordOf (.mov rd ra) (0x3000#16 ||| BitVec.ofNat 16 rd <<< 10 ||| BitVec.ofNat 16 ra <<< 8) :=
  isWordOf_of_encode (by revert rd ra; decide)

theorem illegalIff_ld : IllegalIff 0x1 (fun f => f.ra ≠ 0 ∨ f.rb ≠ 0 ∨ f.zero ≠ 0) :=
  illegalIff_of_uses (u := ⟨true, false, false⟩) rfl fun f => by simp only [true_or, Bool.false_eq_true, false_or]; tauto

theorem illegalIff_readOut : IllegalIff 0x2 (fun f => f.rd ≠ 0 ∨ f.rb ≠ 0 ∨ f.zero ≠ 0) :=
  illegalIff_of_uses (u := ⟨false, true, false⟩) rfl fun f => by simp only [true_or, Bool.false_eq_true, false_or]; tauto

theorem illegalIff_mov : IllegalIff 0x3 (fun f => f.rb ≠ 0 ∨ f.zero ≠ 0) := illegalIff_of_uses_rd_ra rfl

end Sys2Proof

namespace Sys2Proof.Machine

variable {F : Family}

theorem exec_mov (u : UnitState F) (p : Port F) (rd ra : RegNum) :
    exec (.mov rd ra) ⟨F, u, p⟩ = .next ⟨F, u.write rd (u.read ra), p.respond okCode 0⟩ := rfl

/-- Settles O26: LD writes the unpacked payload, whose fields are the payload's, or it raises its fault. -/
theorem ldConstructsTheValueOrFaults : Obligations.LdConstructsTheValueOrFaults := by
  unfold Obligations.LdConstructsTheValueOrFaults
  refine fun rd => ⟨isWordOf_ld rd, illegalIff_ld, fun F u p => ⟨fun hle => ?_, fun hlt => ?_⟩⟩
  · refine ⟨_, _, execLd_valid u p rd hle, ?_, ?_, ?_, u.sameBut_write rd _, p.answered_respond _ _⟩
    all_goals rw [UnitState.read_write_self]
    · exact fun i => unpack_e p.wdata i i.isLt
    · exact unpack_plen p.wdata
    · exact pack_unpack p.wdata
  · exact ⟨_, _, execLd_invalid u p rd (Nat.not_le_of_lt hlt), u.setFlag_A _, u.setFlag_STATUS _,
      p.answered_respond _ _⟩

/-- Settles O27: RD answers with `pack(A[ra])`, whose two fields are `flat(A[ra])` and the prefix length. -/
theorem rdReturnsTheWholeValue : Obligations.RdReturnsTheWholeValue := by
  unfold Obligations.RdReturnsTheWholeValue
  refine fun ra => ⟨isWordOf_readOut ra, illegalIff_readOut, fun F u p => ?_⟩
  exact ⟨(u.read ra).pack, _, exec_readOut u p ra, p.answered_respond _ _, pack_flat _, pack_prefix _⟩

/-- Settles O28: MOV writes the source's value; with `rd = ra` it writes back what the register holds. -/
theorem movCopiesTheWholeValue : Obligations.MovCopiesTheWholeValue := by
  unfold Obligations.MovCopiesTheWholeValue
  refine fun rd ra => ⟨isWordOf_mov rd ra, illegalIff_mov, fun F u p => ?_⟩
  refine ⟨_, _, exec_mov u p rd ra, u.read_write_self rd _, ?_, u.sameBut_write rd _, p.answered_respond _ _⟩
  rintro rfl
  exact u.write_read rd

end Sys2Proof.Machine
end

section
/-! The bitwise commands NOT, AND, OR and XOR (`spec/41_bitwise.md` R62 to R69). -/

namespace Sys2Proof

/-- The word of a command that uses all three register fields, from its opcode's base word (R43). -/
theorem word_of_registers (op : BitVec 4) (rd ra rb : RegNum) :
    (Fields.mk op (regField rd) (regField ra) (regField rb) 0).word =
      (op ++ 0#12) ||| BitVec.ofNat 16 rd <<< 10 ||| BitVec.ofNat 16 ra <<< 8 ||| BitVec.ofNat 16 rb <<< 6 := by
  revert op rd ra rb; decide

/-- The word of a command that uses `rd` and `ra`, from its opcode's base word (R43). -/
theorem word_of_rd_ra (op : BitVec 4) (rd ra : RegNum) :
    (Fields.mk op (regField rd) (regField ra) 0 0).word =
      (op ++ 0#12) ||| BitVec.ofNat 16 rd <<< 10 ||| BitVec.ofNat 16 ra <<< 8 := by
  simpa [regField] using word_of_registers op rd ra 0

theorem isWordOf_not (rd ra : RegNum) :
    IsWordOf (.not rd ra) (0x4000#16 ||| BitVec.ofNat 16 rd <<< 10 ||| BitVec.ofNat 16 ra <<< 8) :=
  isWordOf_of_encode (word_of_rd_ra 0x4 rd ra)

theorem isWordOf_and (rd ra rb : RegNum) :
    IsWordOf (.and rd ra rb)
      (0x5000#16 ||| BitVec.ofNat 16 rd <<< 10 ||| BitVec.ofNat 16 ra <<< 8 ||| BitVec.ofNat 16 rb <<< 6) :=
  isWordOf_of_encode (word_of_registers 0x5 rd ra rb)

theorem isWordOf_or (rd ra rb : RegNum) :
    IsWordOf (.or rd ra rb)
      (0x6000#16 ||| BitVec.ofNat 16 rd <<< 10 ||| BitVec.ofNat 16 ra <<< 8 ||| BitVec.ofNat 16 rb <<< 6) :=
  isWordOf_of_encode (word_of_registers 0x6 rd ra rb)

theorem isWordOf_xor (rd ra rb : RegNum) :
    IsWordOf (.xor rd ra rb)
      (0x7000#16 ||| BitVec.ofNat 16 rd <<< 10 ||| BitVec.ofNat 16 ra <<< 8 ||| BitVec.ofNat 16 rb <<< 6) :=
  isWordOf_of_encode (word_of_registers 0x7 rd ra rb)

/-- A command that uses all three register fields leaves only `zero` to be checked: AND, OR, XOR. -/
theorem illegalIff_of_uses_all {op : BitVec 4} (hu : usesOf op = some ⟨true, true, true⟩) :
    IllegalIff op (fun f => f.zero ≠ 0) :=
  illegalIff_of_uses hu fun f => by simp only [true_or, and_true, ne_eq]

end Sys2Proof

namespace Sys2Proof.Machine

variable {F : Family}

theorem exec_not (u : UnitState F) (p : Port F) (rd ra : RegNum) :
    exec (.not rd ra) ⟨F, u, p⟩ = .next ⟨F, u.write rd (u.read ra).notF, p.respond okCode 0⟩ := rfl

theorem exec_and (u : UnitState F) (p : Port F) (rd ra rb : RegNum) :
    exec (.and rd ra rb) ⟨F, u, p⟩ = .next ⟨F, u.write rd ((u.read ra).andF (u.read rb)), p.respond okCode 0⟩ := rfl

theorem exec_or (u : UnitState F) (p : Port F) (rd ra rb : RegNum) :
    exec (.or rd ra rb) ⟨F, u, p⟩ = .next ⟨F, u.write rd ((u.read ra).orF (u.read rb)), p.respond okCode 0⟩ := rfl

theorem exec_xor (u : UnitState F) (p : Port F) (rd ra rb : RegNum) :
    exec (.xor rd ra rb) ⟨F, u, p⟩ = .next ⟨F, u.write rd ((u.read ra).xorF (u.read rb)), p.respond okCode 0⟩ := rfl

/-- The complement in `W` bits is subtraction from `ones(W)` (R63). -/
theorem AddressValue.notF_toNat (a : AddressValue F) (i : Nat) (hi : i < F.N) :
    (a.notF.e[i]).toNat = 2 ^ F.W - 1 - (a.e[i]).toNat := by
  rw [AddressValue.notF_e, BitVec.toNat_not]

/-- A command that completes by writing `v` to `A[rd]` has as its effect what is known of the elements and the prefix
length of `v`, with the frame of R20; `v` is computed from the old registers, so `rd` may be one of its sources. -/
theorem effect_of_exec_write {i : Instr} {u : UnitState F} {p : Port F} {rd ra : RegNum} {v : AddressValue F}
    {elem : (k : Fin F.N) → BitVec F.W → Prop}
    (hexec : exec i ⟨F, u, p⟩ = .next ⟨F, u.write rd v, p.respond okCode 0⟩)
    (helem : ∀ k : Fin F.N, elem k v.e[k]) (hplen : v.plen = (u.read ra).plen) :
    ∃ u' p', exec i ⟨F, u, p⟩ = .next ⟨F, u', p'⟩ ∧ (∀ k : Fin F.N, elem k (u'.read rd).e[k]) ∧
      (u'.read rd).plen = (u.read ra).plen ∧ u.SameBut u' rd ∧ p.Answered p' 0 0 := by
  refine ⟨_, _, hexec, ?_, ?_, u.sameBut_write rd v, p.answered_respond _ _⟩
  · rwa [UnitState.read_write_self]
  · rwa [UnitState.read_write_self]

/-- Settles O29: NOT writes the complement of the source, which is `ones(W) - e` in each element. -/
theorem notComplementsEveryElement : Obligations.NotComplementsEveryElement := by
  unfold Obligations.NotComplementsEveryElement
  refine fun rd ra => ⟨isWordOf_not rd ra, illegalIff_of_uses_rd_ra rfl, fun F u p => ?_⟩
  exact effect_of_exec_write (elem := fun k x => x.toNat = 2 ^ F.W - 1 - ((u.read ra).e[k]).toNat)
    (exec_not u p rd ra) (fun k => AddressValue.notF_toNat _ k k.isLt) (AddressValue.notF_plen _)

/-- Settles O30: AND writes the AND of the sources' elements with the left source's prefix length. -/
theorem andCombinesEveryElement : Obligations.AndCombinesEveryElement := by
  unfold Obligations.AndCombinesEveryElement
  refine fun rd ra rb => ⟨isWordOf_and rd ra rb, illegalIff_of_uses_all rfl, fun F u p => ?_⟩
  exact effect_of_exec_write (elem := fun k x => x = (u.read ra).e[k] &&& (u.read rb).e[k])
    (exec_and u p rd ra rb) (fun k => AddressValue.andF_e _ _ k k.isLt) (AddressValue.andF_plen _ _)

/-- Settles O31: OR writes the OR of the sources' elements with the left source's prefix length. -/
theorem orCombinesEveryElement : Obligations.OrCombinesEveryElement := by
  unfold Obligations.OrCombinesEveryElement
  refine fun rd ra rb => ⟨isWordOf_or rd ra rb, illegalIff_of_uses_all rfl, fun F u p => ?_⟩
  exact effect_of_exec_write (elem := fun k x => x = (u.read ra).e[k] ||| (u.read rb).e[k])
    (exec_or u p rd ra rb) (fun k => AddressValue.orF_e _ _ k k.isLt) (AddressValue.orF_plen _ _)

/-- Settles O32: XOR writes the XOR of the sources' elements with the left source's prefix length. -/
theorem xorCombinesEveryElement : Obligations.XorCombinesEveryElement := by
  unfold Obligations.XorCombinesEveryElement
  refine fun rd ra rb => ⟨isWordOf_xor rd ra rb, illegalIff_of_uses_all rfl, fun F u p => ?_⟩
  exact effect_of_exec_write (elem := fun k x => x = (u.read ra).e[k] ^^^ (u.read rb).e[k])
    (exec_xor u p rd ra rb) (fun k => AddressValue.xorF_e _ _ k k.isLt) (AddressValue.xorF_plen _ _)

end Sys2Proof.Machine
end

section
/-! The netmask command MASK (`spec/42_netmask.md` R71, R75): what a netmask is, read from the most significant end. -/

namespace Sys2Proof

theorem isWordOf_mask (rd ra : RegNum) :
    IsWordOf (.mask rd ra) (0x8000#16 ||| BitVec.ofNat 16 rd <<< 10 ||| BitVec.ofNat 16 ra <<< 8) :=
  isWordOf_of_encode (word_of_rd_ra 0x8 rd ra)

end Sys2Proof

namespace Sys2Proof.Machine

variable {F : Family}

/-- The netmask keeps its argument's prefix length (R71). -/
theorem AddressValue.netmaskF_plen {a m : AddressValue F} (hm : a.netmaskF = some m) : m.plen = a.plen := by
  have hvalid : a.Valid := a.netmaskF_isSome.mp (Option.isSome_of_eq_some hm)
  obtain ⟨m', hm', hplen, -⟩ := a.netmaskF_eq hvalid
  rwa [Option.some.inj (hm.symm.trans hm')]

/-- The netmask has its network-portion bits at 1 and its host-portion bits at 0: counted from the most significant
end, the first `plen` bits are the network portion (R71). -/
theorem AddressValue.netmaskF_leadingBit {a m : AddressValue F} (hm : a.netmaskF = some m) {j : Nat} (hj : j < F.T) :
    m.leadingBit j = decide (j < a.plen.toNat) := by
  rw [m.leadingBit_eq j hj, a.netmaskF_bits m hm _ (by omega)]
  exact decide_eq_decide.mpr (by omega)

/-- MASK completes by writing the netmask of the source's old value, where that has one (R75). -/
theorem exec_mask (u : UnitState F) (p : Port F) (rd : RegNum) {ra : RegNum} {m : AddressValue F}
    (hm : (u.read ra).netmaskF = some m) :
    exec (.mask rd ra) ⟨F, u, p⟩ = .next ⟨F, u.write rd m, p.respond okCode 0⟩ :=
  congrArg (State.completeWith ⟨F, u, p⟩ rd) hm

/-- Settles O33: MASK writes the netmask of its source, whose leading bits and prefix length are the netmask's. -/
theorem maskWritesTheNetmask : Obligations.MaskWritesTheNetmask := by
  unfold Obligations.MaskWritesTheNetmask
  refine fun rd ra => ⟨isWordOf_mask rd ra, illegalIff_of_uses_rd_ra rfl, fun F u p hvalid => ?_⟩
  obtain ⟨m, hm⟩ := Option.isSome_iff_exists.mp ((u.read ra).netmaskF_isSome.mpr hvalid)
  have hread : (u.write rd m).read rd = m := u.read_write_self rd m
  refine ⟨_, _, m, exec_mask u p rd hm, hm, hread, fun j hj => ?_, ?_, u.sameBut_write rd m, p.answered_respond _ _⟩
  · rw [hread, AddressValue.netmaskF_leadingBit hm hj]
  · rw [hread, AddressValue.netmaskF_plen hm]

end Sys2Proof.Machine
end

section
/-! The bitwise engine functions on the address as one `T`-bit number (`spec/41_bitwise.md` R62): an operation in every
lane is that operation on `flat`, so on each bit counted from the most significant end. -/

namespace Sys2Proof.Machine

variable {F : Family}

@[simp] theorem AddressValue.notF_flat (a : AddressValue F) : a.notF.flat = ~~~a.flat := by
  refine BitVec.eq_of_getLsbD_eq fun j hj => ?_
  rw [BitVec.getLsbD_not, AddressValue.flat_getLsbD _ j hj, AddressValue.flat_getLsbD _ j hj, AddressValue.notF_e,
    BitVec.getLsbD_not, decide_eq_true hj, decide_eq_true (Nat.mod_lt j F.W_pos)]

@[simp] theorem AddressValue.andF_flat (a b : AddressValue F) : (a.andF b).flat = a.flat &&& b.flat := by
  refine BitVec.eq_of_getLsbD_eq fun j hj => ?_
  simp [AddressValue.flat_getLsbD _ j hj]

@[simp] theorem AddressValue.orF_flat (a b : AddressValue F) : (a.orF b).flat = a.flat ||| b.flat := by
  refine BitVec.eq_of_getLsbD_eq fun j hj => ?_
  simp [AddressValue.flat_getLsbD _ j hj]

theorem AddressValue.notF_leadingBit (a : AddressValue F) {j : Nat} (hj : j < F.T) :
    a.notF.leadingBit j = !a.leadingBit j := by
  simp [AddressValue.leadingBit, hj]

theorem AddressValue.andF_leadingBit (a b : AddressValue F) (j : Nat) :
    (a.andF b).leadingBit j = (a.leadingBit j && b.leadingBit j) := by
  simp [AddressValue.leadingBit]

theorem AddressValue.orF_leadingBit (a b : AddressValue F) (j : Nat) :
    (a.orF b).leadingBit j = (a.leadingBit j || b.leadingBit j) := by
  simp [AddressValue.leadingBit]

end Sys2Proof.Machine
end

section
/-! The derivation commands NET and BCAST (`spec/43_derive.md` R77 to R80): the network and broadcast addresses from the
netmask, element by element and bit by bit from the most significant end. -/

namespace Sys2Proof

theorem isWordOf_net (rd ra : RegNum) :
    IsWordOf (.net rd ra) (0x9000#16 ||| BitVec.ofNat 16 rd <<< 10 ||| BitVec.ofNat 16 ra <<< 8) :=
  isWordOf_of_encode (word_of_rd_ra 0x9 rd ra)

theorem isWordOf_bcast (rd ra : RegNum) :
    IsWordOf (.bcast rd ra) (0xA000#16 ||| BitVec.ofNat 16 rd <<< 10 ||| BitVec.ofNat 16 ra <<< 8) :=
  isWordOf_of_encode (word_of_rd_ra 0xA rd ra)

end Sys2Proof

namespace Sys2Proof.Machine

variable {F : Family}

theorem AddressValue.networkF_eq {a m : AddressValue F} (hm : a.netmaskF = some m) :
    a.networkF = some (a.andF m) := by
  rw [AddressValue.networkF, hm, Option.map_some]

theorem AddressValue.broadcastF_eq {a m : AddressValue F} (hm : a.netmaskF = some m) :
    a.broadcastF = some (a.orF m.notF) := by
  rw [AddressValue.broadcastF, hm, Option.map_some]

/-- The network address keeps the first `plen` bits and clears the others (R77). -/
theorem AddressValue.network_leadingBit {a m : AddressValue F} (hm : a.netmaskF = some m) {j : Nat} (hj : j < F.T) :
    (a.andF m).leadingBit j = (a.leadingBit j && decide (j < a.plen.toNat)) := by
  rw [AddressValue.andF_leadingBit, AddressValue.netmaskF_leadingBit hm hj]

/-- The broadcast address keeps the first `plen` bits and sets the others (R79). -/
theorem AddressValue.broadcast_leadingBit {a m : AddressValue F} (hm : a.netmaskF = some m) {j : Nat} (hj : j < F.T) :
    (a.orF m.notF).leadingBit j = (a.leadingBit j || !decide (j < a.plen.toNat)) := by
  rw [AddressValue.orF_leadingBit, AddressValue.notF_leadingBit m hj, AddressValue.netmaskF_leadingBit hm hj]

theorem AddressValue.broadcast_e (a m : AddressValue F) (i : Nat) (hi : i < F.N) :
    (a.orF m.notF).e[i] = a.e[i] ||| ~~~m.e[i] := by
  rw [AddressValue.orF_e, AddressValue.notF_e]

/-- NET completes by writing the network address of the source's old value, where the netmask has a value (R78). -/
theorem exec_net (u : UnitState F) (p : Port F) (rd : RegNum) {ra : RegNum} {m : AddressValue F}
    (hm : (u.read ra).netmaskF = some m) :
    exec (.net rd ra) ⟨F, u, p⟩ = .next ⟨F, u.write rd ((u.read ra).andF m), p.respond okCode 0⟩ :=
  congrArg (State.completeWith ⟨F, u, p⟩ rd) (AddressValue.networkF_eq hm)

/-- BCAST completes by writing the broadcast address of the source's old value, where the netmask has a value (R80). -/
theorem exec_bcast (u : UnitState F) (p : Port F) (rd : RegNum) {ra : RegNum} {m : AddressValue F}
    (hm : (u.read ra).netmaskF = some m) :
    exec (.bcast rd ra) ⟨F, u, p⟩ = .next ⟨F, u.write rd ((u.read ra).orF m.notF), p.respond okCode 0⟩ :=
  congrArg (State.completeWith ⟨F, u, p⟩ rd) (AddressValue.broadcastF_eq hm)

/-- Settles O34: NET writes the AND of the source with its netmask, whose bits past the prefix length are 0. -/
theorem netClearsTheHostPortion : Obligations.NetClearsTheHostPortion := by
  unfold Obligations.NetClearsTheHostPortion
  refine fun rd ra => ⟨isWordOf_net rd ra, illegalIff_of_uses_rd_ra rfl, fun F u p hvalid => ?_⟩
  obtain ⟨m, hm, -⟩ := (u.read ra).netmaskF_eq hvalid
  refine ⟨_, _, m, exec_net u p rd hm, hm, ?_, ?_, ?_, u.sameBut_write rd _, p.answered_respond _ _⟩
  all_goals rw [UnitState.read_write_self]
  · exact fun i => AddressValue.andF_e _ m i i.isLt
  · exact fun j hj => AddressValue.network_leadingBit hm hj
  · exact AddressValue.andF_plen _ m

/-- Settles O35: BCAST writes the OR of the source with its netmask's complement, whose bits past the prefix length
are 1. -/
theorem bcastSetsTheHostPortion : Obligations.BcastSetsTheHostPortion := by
  unfold Obligations.BcastSetsTheHostPortion
  refine fun rd ra => ⟨isWordOf_bcast rd ra, illegalIff_of_uses_rd_ra rfl, fun F u p hvalid => ?_⟩
  obtain ⟨m, hm, -⟩ := (u.read ra).netmaskF_eq hvalid
  refine ⟨_, _, m, exec_bcast u p rd hm, hm, ?_, ?_, ?_, u.sameBut_write rd _, p.answered_respond _ _⟩
  all_goals rw [UnitState.read_write_self]
  · exact fun i => AddressValue.broadcast_e _ m i i.isLt
  · exact fun j hj => AddressValue.broadcast_leadingBit hm hj
  · exact AddressValue.orF_plen _ _

end Sys2Proof.Machine
end

section
/-! The system command RDST (`spec/44_system.md` R82): its one word, and the read data it answers, bit by bit. -/

namespace Sys2Proof

theorem isWordOf_rdst : IsWordOf .rdst 0xB000 := isWordOf_of_encode (by decide)

theorem illegalIff_rdst : IllegalIff 0xB (fun f => f.rd ≠ 0 ∨ f.ra ≠ 0 ∨ f.rb ≠ 0 ∨ f.zero ≠ 0) :=
  illegalIff_of_uses (u := ⟨false, false, false⟩) rfl fun f => by simp only [Bool.false_eq_true, false_or]; tauto

/-- No other command has the opcode of RDST (R45). -/
theorem eq_rdst_of_op {i : Instr} (h : i.fields.op = 0xB) : i = .rdst := by
  cases i with
  | rdst => rfl
  | _ => cases h

/-- Every word of RDST's opcode but its one word is illegal. -/
theorem exists_decode_error_of_ne_rdst {cmd : BitVec 16} (hop : (fieldsOf cmd).op = 0xB) (hne : cmd ≠ 0xB000) :
    ∃ e, decode cmd = .error e := by
  cases hd : decode cmd with
  | error e => exact ⟨e, rfl⟩
  | ok i =>
    obtain rfl : i = .rdst := eq_rdst_of_op (fieldsOf_of_decode hd ▸ hop)
    exact absurd ((isWordOf_rdst cmd).mp hd) hne

end Sys2Proof

namespace Sys2Proof.Machine

variable {F : Family}

/-- Zero-extension to the read data keeps every bit of an 8-bit value and adds zeros above it (R11). -/
theorem zextData_getLsbD (v : BitVec 8) (j : Nat) : (zextData v : BitVec F.dataW).getLsbD j = v.getLsbD j := by
  rw [zextData, BitVec.getLsbD_setWidth, Bool.and_eq_right_iff_imp]
  intro h
  exact decide_eq_true ((BitVec.lt_of_getLsbD h).trans_le (Nat.le_add_left 8 F.T))

/-- Bit 0 of STATUS is `ILL` (`spec/10_state.md` R22). -/
theorem Status.word_getLsbD_zero (st : Status) : st.word.getLsbD 0 = st.ill := by
  obtain ⟨ill, ipl⟩ := st
  revert ill ipl; decide

/-- Bit 1 of STATUS is `IPL` (`spec/10_state.md` R22). -/
theorem Status.word_getLsbD_one (st : Status) : st.word.getLsbD 1 = st.ipl := by
  obtain ⟨ill, ipl⟩ := st
  revert ill ipl; decide

theorem Status.word_toNat_lt (st : Status) : st.word.toNat < 2 ^ 2 := by
  obtain ⟨ill, ipl⟩ := st
  revert ill ipl; decide

/-- The other bits of STATUS are 0 (`spec/10_state.md` R22). -/
theorem Status.word_getLsbD_of_two_le (st : Status) {j : Nat} (hj : 2 ≤ j) : st.word.getLsbD j = false :=
  Nat.testBit_lt_two_pow (st.word_toNat_lt.trans_le (Nat.pow_le_pow_right Nat.two_pos hj))

/-- Settles O36: every other word of the opcode decodes to an error, and the read data has the bits of STATUS. -/
theorem rdstReturnsTheStatus : Obligations.RdstReturnsTheStatus := by
  unfold Obligations.RdstReturnsTheStatus
  refine ⟨isWordOf_rdst, illegalIff_rdst, fun F u p c rest hop hne => ?_, fun F u p => ?_⟩
  · obtain ⟨e, he⟩ := exists_decode_error_of_ne_rdst hop hne
    exact ⟨_, _, step_illegal u _ c rest e rfl he, rfl, rfl⟩
  · refine ⟨_, _, exec_rdst u p, p.answered_respond _ _, ?_, ?_, fun j hj => ?_⟩
    all_goals rw [zextData_getLsbD]
    · exact u.STATUS.word_getLsbD_zero
    · exact u.STATUS.word_getLsbD_one
    · exact u.STATUS.word_getLsbD_of_two_le hj

end Sys2Proof.Machine
end

section
/-! The two faults (`spec/60_exceptions.md` R84 to R90): which commands raise each, and what raising one changes. -/

namespace Sys2Proof

/-- The reserved opcodes are those without a row in the "uses" column (R48). -/
theorem usesOf_isSome_iff (op : BitVec 4) : (usesOf op).isSome ↔ op ∉ [0x0#4, 0xC#4, 0xD#4, 0xE#4, 0xF#4] := by
  revert op; decide

/-- R85's three causes are what makes the fields of a word ill-formed. -/
theorem Fields.not_wellFormed_iff (f : Fields) :
    ¬ f.WellFormed ↔ ¬ f.ZeroClear ∨ f.op ∈ [0x0#4, 0xC#4, 0xD#4, 0xE#4, 0xF#4] ∨ ¬ f.UnusedClear := by
  rw [Fields.wellFormed_iff, not_and_or, not_and_or, Fields.OpDefined, usesOf_isSome_iff, not_not]

end Sys2Proof

namespace Sys2Proof.Machine

variable {F : Family}

/-- An LD whose payload's prefix length exceeds `T` raises InvalidPrefixLength, and its step does nothing else (R86). -/
theorem step_ld_of_lt (u : UnitState F) (p : Port F) (c : Command F) (rest : List (Event F)) (rd : RegNum)
    (h : p.pending = .command c :: rest) (hd : decode c.cmd = .ok (.ld rd))
    (hlt : F.T < (c.wdata.extractLsb' 0 8).toNat) :
    step ⟨F, u, p⟩ = .next ⟨F, u.setFlag .invalidPrefixLength,
      Port.respond { p with wdata := c.wdata, pending := rest } FaultKind.invalidPrefixLength.code 0⟩ := by
  rw [step_command u p c rest _ h hd]
  exact execLd_invalid u _ rd (Nat.not_le_of_lt hlt)

/-- The response to a command carries code 1 for an illegal word, code 2 for an LD out of range, else code 0 (R84). -/
theorem response_err_cases {u u' : UnitState F} {p p' : Port F} {c : Command F} {rest : List (Event F)}
    {resp : Response F} (h : step ⟨F, u, { p with pending := .command c :: rest }⟩ = .next ⟨F, u', p'⟩)
    (hresp : p'.responses = p.responses ++ [resp]) :
    (∃ e, decode c.cmd = .error e) ∧ resp.err = 1 ∨
      ((∃ rd, decode c.cmd = .ok (.ld rd)) ∧ F.T < (c.wdata.extractLsb' 0 8).toNat) ∧ resp.err = 2 ∨
      resp.err = 0 := by
  obtain ⟨_, _, resp', ht, hresp', hcases⟩ := oneResponsePerCommand F u p c rest _ h
  cases ht
  obtain rfl : resp = resp' := by simpa using hresp.symm.trans hresp'
  obtain ⟨hill, rfl⟩ | ⟨hld, hlt, rfl⟩ | ⟨_, _, _, herr, _⟩ := hcases
  · exact .inl ⟨hill, rfl⟩
  · exact .inr (.inl ⟨⟨hld, hlt⟩, rfl⟩)
  · exact .inr (.inr herr)

/-- Settles O4: an illegal word is answered with code 1, and no other command's response carries that code. -/
theorem illegalCommandExactlyWhenTheWordIsIllegal : Obligations.IllegalCommandExactlyWhenTheWordIsIllegal := by
  unfold Obligations.IllegalCommandExactlyWhenTheWordIsIllegal
  intro F u p c rest
  rw [← Fields.not_wellFormed_iff]
  constructor
  · exact step_of_not_wellFormed u p c rest
  · rintro ⟨u', p', hstep, hresp⟩
    obtain ⟨hill, -⟩ | ⟨-, herr⟩ | herr := response_err_cases hstep hresp
    · exact (exists_decode_error_iff _).mp hill
    · exact absurd herr (by decide : (1 : BitVec 2) ≠ 2)
    · exact absurd herr (by decide : (1 : BitVec 2) ≠ 0)

/-- Settles O19: an LD out of range is answered with code 2, and no other command's response carries that code. -/
theorem invalidPrefixLengthExactlyWhenLdIsOutOfRange :
    Obligations.InvalidPrefixLengthExactlyWhenLdIsOutOfRange := by
  unfold Obligations.InvalidPrefixLengthExactlyWhenLdIsOutOfRange
  intro F u p c rest
  constructor
  · rintro ⟨⟨rd, hd⟩, hlt⟩
    exact ⟨_, _, step_ld_of_lt u _ c rest rd rfl hd hlt, rfl⟩
  · rintro ⟨u', p', hstep, hresp⟩
    obtain ⟨-, herr⟩ | ⟨hld, -⟩ | herr := response_err_cases hstep hresp
    · exact absurd herr (by decide : (2 : BitVec 2) ≠ 1)
    · exact hld
    · exact absurd herr (by decide : (2 : BitVec 2) ≠ 0)

/-- Settles O17: each fault's step sets the flag of its kind and gives its response, and that is all it does. -/
theorem faultWritesOnlyItsFlag : Obligations.FaultWritesOnlyItsFlag := by
  unfold Obligations.FaultWritesOnlyItsFlag
  constructor
  · rintro F u p c rest ⟨e, he⟩
    refine ⟨_, _, step_illegal u _ c rest e rfl he, u.setFlag_A _, ?_, ?_, Port.respond_responses _ _ _,
      Port.respond_pending _ _ _⟩
    all_goals rw [UnitState.setFlag_STATUS, Status.set_ill]
  · intro F u p c rest rd hd hlt
    refine ⟨_, _, step_ld_of_lt u _ c rest rd rfl hd hlt, u.setFlag_A _, ?_, ?_, Port.respond_responses _ _ _,
      Port.respond_pending _ _ _⟩
    all_goals rw [UnitState.setFlag_STATUS, Status.set_ipl]

end Sys2Proof.Machine
end

section
/-! The reset event (`spec/70_reset_and_hazards.md` R96): what a step with a reset pending does. -/

namespace Sys2Proof.Machine

/-- Settles O9: the step puts the unit in the reset state, whose registers and STATUS are all 0, and of the port it
takes only the event. -/
theorem resetEventRestoresTheResetState : Obligations.ResetEventRestoresTheResetState := by
  unfold Obligations.ResetEventRestoresTheResetState
  intro F u p rest
  refine ⟨_, _, step_reset u _ rest rfl, fun r => ?_, ?_, (State.resetOf_unit F).symm, rfl, rfl⟩
  · obtain ⟨he, hplen, -⟩ := UnitState.reset_register F r
    exact ⟨hplen, he⟩
  · rw [UnitState.reset_STATUS, Status.clear_word]

end Sys2Proof.Machine
end

section
/-! Command words (`spec/30_encoding.md` R54): the spec's own words, and the decoder as the encoder's inverse. -/

namespace Sys2Proof.Machine

/-- Settles O2: a decoded command's fields are the word's, and the decoder reads back what the encoder wrote. -/
theorem decodeIsTheInverseOfEncode : Obligations.DecodeIsTheInverseOfEncode := by
  unfold Obligations.DecodeIsTheInverseOfEncode
  exact decode_eq_ok_iff

/-- Settles O1, by running the decoder on each word of the table. -/
theorem decodesTheSpecsWords : Obligations.DecodesTheSpecsWords := by
  unfold Obligations.DecodesTheSpecsWords
  decide

end Sys2Proof.Machine
end

section
/-! The invariants of a step (`spec/10_state.md` R19, R20, R22; `spec/70_reset_and_hazards.md` R97): the frame of a
command, then what every step keeps. -/

namespace Sys2Proof.Machine

variable {F : Family}

/-- Settles O25: the frames of the three things a command that answers a next state can have done. -/
theorem commandFrame : Obligations.CommandFrame := by
  unfold Obligations.CommandFrame
  intro i F u p t h
  obtain ⟨rd, v, hdest, rfl, -⟩ | ⟨d, -, rfl⟩ | ⟨rd, rfl, -, rfl⟩ := exec_next i u p t h
  · refine ⟨_, _, _, rfl, fun r hr => ?_, rfl, rfl, rfl, .inl ⟨rfl, rfl⟩⟩
    exact u.read_write_ne v fun hrd => hr (hrd ▸ hdest)
  · exact ⟨_, _, _, rfl, fun _ _ => rfl, rfl, rfl, rfl, .inl ⟨rfl, rfl⟩⟩
  · exact ⟨_, _, _, rfl, fun _ _ => rfl, rfl, rfl, rfl, .inr ⟨rfl, ⟨rd, rfl⟩, rfl, rfl⟩⟩

/-- A command that answers a next state clears no flag. -/
theorem exec_keeps_flags {i : Instr} {u u' : UnitState F} {p p' : Port F}
    (h : exec i ⟨F, u, p⟩ = .next ⟨F, u', p'⟩) :
    (u.STATUS.ill = true → u'.STATUS.ill = true) ∧ (u.STATUS.ipl = true → u'.STATUS.ipl = true) := by
  obtain ⟨_, _, _, ht, -, -, -, -, hstatus⟩ := commandFrame i F u p _ h
  cases ht
  obtain ⟨-, hst⟩ | ⟨-, -, -, hst⟩ := hstatus <;> rw [hst]
  · exact ⟨id, id⟩
  · exact ⟨id, fun _ => rfl⟩

/-- Settles O10: an illegal word writes no register, and a command writes its destination only and clears no flag. -/
theorem onlyResetClearsAFlag : Obligations.OnlyResetClearsAFlag := by
  unfold Obligations.OnlyResetClearsAFlag
  intro F u p t h
  obtain ⟨-, rfl⟩ | ⟨rest, hp, rfl⟩ | ⟨c, rest, e, -, -, rfl⟩ | ⟨c, rest, i, hp, hd, hexec⟩ := step_next u p t h
  · exact ⟨u, p, rfl, fun _ => ⟨id, id, fun _ hr => absurd rfl hr⟩⟩
  · exact ⟨_, _, rfl, fun hne => absurd hp (hne rest)⟩
  · exact ⟨_, _, rfl, fun _ => ⟨fun _ => rfl, id, fun r hr => absurd (u.setFlag_read _ r) hr⟩⟩
  · obtain ⟨u', p', _, rfl, hread, -⟩ := commandFrame i F u _ t hexec
    obtain ⟨hill, hipl⟩ := exec_keeps_flags hexec
    exact ⟨u', p', rfl, fun _ => ⟨hill, hipl, fun r hr => ⟨c, rest, i, hp, hd, not_imp_comm.mp (hread r) hr⟩⟩⟩

/-- No step changes the family (R97). -/
theorem step_keeps_family (s t : State) (h : step s = .next t) : t.family = s.family := by
  obtain ⟨_, _, rfl, -⟩ := onlyResetClearsAFlag s.family s.unit s.port t h
  rfl

/-- What holds of a state and is kept by every step holds after a run of any length. -/
theorem run_keeps {P : State → Prop} (hstep : ∀ s t, P s → step s = .next t → P t) (n : Nat) {s t : State} (hs : P s)
    (h : Host.Core.run core n s = .next t) : P t := by
  induction n generalizing s with
  | zero => cases h; exact hs
  | succ n ih =>
    rw [run_succ n s.unit s.port] at h
    cases hst : step s with
    | next s' => rw [hst] at h; exact ih (hstep s s' hs hst) h
    | fault r => nomatch r
    | refused r => rw [hst] at h; cases h

/-- Settles O11: every step keeps the family, so a run does. -/
theorem familyIsFixedForLife : Obligations.FamilyIsFixedForLife := by
  unfold Obligations.FamilyIsFixedForLife
  intro n s t h
  exact run_keeps (P := fun s' => s'.family = s.family)
    (fun s' t' hs' hstep => (step_keeps_family s' t' hstep).trans hs') n rfl h

/-! ### The register invariant -/

theorem UnitState.prefixesValid_write {u : UnitState F} (hu : u.PrefixesValid) (rd : RegNum) {v : AddressValue F}
    (hv : v.Valid) : (u.write rd v).PrefixesValid := by
  intro r
  rw [UnitState.read_write]
  split
  · exact hv
  · exact hu r

theorem UnitState.prefixesValid_reset (F : Family) : (UnitState.reset F).PrefixesValid := by
  intro r
  rw [UnitState.reset_read]
  exact Nat.zero_le F.T

theorem Port.codesDefined_respond {p : Port F} (hp : p.CodesDefined) {err : BitVec 2} (d : BitVec F.dataW)
    (herr : err ≠ 3) : (p.respond err d).CodesDefined := by
  intro x hx
  rw [Port.respond_responses, List.mem_append, List.mem_singleton] at hx
  obtain hx | rfl := hx
  · exact hp x hx
  · exact herr

theorem resetOf_inv (F : Family) : (State.resetOf F).Inv :=
  ⟨UnitState.prefixesValid_reset F, fun _ hx => absurd hx List.not_mem_nil⟩

/-- Settles O13: the registers of a reset unit are zero, and it has given no response. -/
theorem invariantHoldsAtReset : Obligations.InvariantHoldsAtReset := by
  unfold Obligations.InvariantHoldsAtReset
  exact ⟨resetOf_inv, resetOf_inv .v4, rfl⟩

/-- A command writes a valid loaded value or one with a source's prefix length, and answers with code 0 or 2. -/
theorem exec_keeps_inv {i : Instr} {u : UnitState F} {p : Port F} {t : State} (h : exec i ⟨F, u, p⟩ = .next t)
    (hu : u.PrefixesValid) (hp : p.CodesDefined) : t.Inv := by
  have hok : okCode ≠ 3 := by decide
  have hipl : FaultKind.invalidPrefixLength.code ≠ 3 := by decide
  obtain ⟨rd, v, -, rfl, hv⟩ | ⟨d, -, rfl⟩ | ⟨rd, -, -, rfl⟩ := exec_next i u p t h
  · refine ⟨UnitState.prefixesValid_write hu rd ?_, Port.codesDefined_respond hp 0 hok⟩
    obtain ⟨-, -, hvalid⟩ | ⟨-, ra, hplen⟩ := hv
    · exact hvalid
    · rw [AddressValue.Valid, hplen]
      exact hu ra
  · exact ⟨hu, Port.codesDefined_respond hp d hok⟩
  · exact ⟨hu, Port.codesDefined_respond hp 0 hipl⟩

theorem step_keeps_inv (s t : State) (hs : s.Inv) (h : step s = .next t) : t.Inv := by
  obtain ⟨F, u, p⟩ := s
  obtain ⟨hu, hp⟩ := hs
  obtain ⟨-, rfl⟩ | ⟨rest, -, rfl⟩ | ⟨c, rest, e, -, -, rfl⟩ | ⟨c, rest, i, -, -, hexec⟩ := step_next u p t h
  · exact ⟨hu, hp⟩
  · exact ⟨UnitState.prefixesValid_reset F, hp⟩
  · exact ⟨hu, Port.codesDefined_respond (p := { p with wdata := c.wdata, pending := rest }) hp 0 (by decide)⟩
  · exact exec_keeps_inv hexec hu hp

/-- A command other than LD leaves in each register a prefix length that a register held before (R19). -/
theorem exec_copies_plen {i : Instr} {u u' : UnitState F} {p p' : Port F} (hi : ∀ rd, i ≠ .ld rd)
    (h : exec i ⟨F, u, p⟩ = .next ⟨F, u', p'⟩) (r : RegNum) : ∃ r', (u'.read r).plen = (u.read r').plen := by
  obtain ⟨rd, v, -, ht, hv⟩ | ⟨d, -, ht⟩ | ⟨rd, hld, -⟩ := exec_next i u p _ h
  · cases ht
    rw [UnitState.read_write]
    split
    · obtain ⟨hld, -⟩ | ⟨-, ra, hplen⟩ := hv
      · exact absurd hld (hi rd)
      · exact ⟨ra, hplen⟩
    · exact ⟨r, rfl⟩
  · cases ht
    exact ⟨r, rfl⟩
  · exact absurd hld (hi rd)

/-- Settles O14: the invariant holds at reset, every step keeps it, and only LD brings in a new prefix length. -/
theorem stepKeepsTheRegisterInvariant : Obligations.StepKeepsTheRegisterInvariant := by
  unfold Obligations.StepKeepsTheRegisterInvariant
  exact ⟨resetOf_inv, step_keeps_inv, fun i F u p u' p' hi h r => exec_copies_plen hi h r⟩

/-- A step from a state whose prefix lengths are valid has a next state. -/
theorem step_total {u : UnitState F} (hu : u.PrefixesValid) (p : Port F) : ∃ t, step ⟨F, u, p⟩ = .next t := by
  match hp : p.pending with
  | [] => exact ⟨_, step_idle u p hp⟩
  | .reset :: rest => exact ⟨_, step_reset u p rest hp⟩
  | .command c :: rest =>
    cases hd : decode c.cmd with
    | error e => exact ⟨_, step_illegal u p c rest e hp hd⟩
    | ok i =>
      rw [step_command u p c rest i hp hd]
      exact exec_total i u _ hu

/-- Settles O12: valid prefix lengths give every step a next state, and the step keeps the invariant. -/
theorem everyStepAnswersANextState : Obligations.EveryStepAnswersANextState := by
  unfold Obligations.EveryStepAnswersANextState
  intro s hs
  have ⟨hu, _⟩ := hs
  obtain ⟨t, ht⟩ := step_total hu s.port
  exact ⟨t, ht, step_keeps_inv s t hs ht⟩

/-! ### The flags and the responses -/

/-- One more response keeps flags and responses in step when each flag is set further by just its own fault's code. -/
theorem flagsTellResponses_append {u u' : UnitState F} {p p' : Port F} {x : Response F}
    (h : State.FlagsTellResponses ⟨F, u, p⟩) (hresp : p'.responses = p.responses ++ [x])
    (hill : u'.STATUS.ill = true ↔ u.STATUS.ill = true ∨ x.err = 1)
    (hipl : u'.STATUS.ipl = true ↔ u.STATUS.ipl = true ∨ x.err = 2) :
    State.FlagsTellResponses ⟨F, u', p'⟩ := by
  obtain ⟨h1, h2⟩ := h
  have hmem : ∀ code : BitVec 2, (∃ y ∈ p'.responses, y.err = code) ↔
      (∃ y ∈ p.responses, y.err = code) ∨ x.err = code := by
    simp [hresp, or_and_right, exists_or]
  exact ⟨by rw [hmem, hill, h1], by rw [hmem, hipl, h2]⟩

/-- Without flags set and without responses, nothing is told (R27). -/
theorem flagsTellResponses_of_clear {u : UnitState F} {p : Port F} (hst : u.STATUS = .clear) (hp : p.responses = []) :
    State.FlagsTellResponses ⟨F, u, p⟩ := by
  simp [State.FlagsTellResponses, hst, hp, Status.clear]

theorem exec_keeps_flagsTellResponses {i : Instr} {u : UnitState F} {p : Port F} {t : State}
    (hexec : exec i ⟨F, u, p⟩ = .next t) (h : State.FlagsTellResponses ⟨F, u, p⟩) : t.FlagsTellResponses := by
  obtain ⟨u', p', x, rfl, -, -, -, hresp, ⟨herr, hst⟩ | ⟨rfl, -, -, hst⟩⟩ := commandFrame i F u p t hexec
  · exact flagsTellResponses_append h hresp (by simp [hst, herr]) (by simp [hst, herr])
  · exact flagsTellResponses_append h hresp (by simp [hst]) (by simp [hst])

theorem step_keeps_flagsTellResponses (s t : State) (hs : s.FlagsTellResponses)
    (hreset : ∀ rest, s.port.pending ≠ .reset :: rest) (h : step s = .next t) : t.FlagsTellResponses := by
  obtain ⟨F, u, p⟩ := s
  obtain ⟨-, rfl⟩ | ⟨rest, hp, -⟩ | ⟨c, rest, e, -, -, rfl⟩ | ⟨c, rest, i, -, -, hexec⟩ := step_next u p t h
  · exact hs
  · exact absurd hp (hreset rest)
  · exact flagsTellResponses_append hs rfl (by simp [FaultKind.code]) (by simp [FaultKind.code])
  · exact exec_keeps_flagsTellResponses hexec hs

/-- Settles O52: a reset unit has clear flags and no response, and each step's response sets just its own flag. -/
theorem stepKeepsFlagsAndResponsesInStep : Obligations.StepKeepsFlagsAndResponsesInStep := by
  unfold Obligations.StepKeepsFlagsAndResponsesInStep
  exact ⟨fun F => flagsTellResponses_of_clear (UnitState.reset_STATUS F) rfl, step_keeps_flagsTellResponses⟩

end Sys2Proof.Machine
end
section
/-! What the host's lists and the flags can do to a command (`spec/20_memory.md` R38, `spec/10_state.md` R23,
`spec/60_exceptions.md` R91): its effect is fixed by the registers and its own payload. Then runs of commands
(`spec/70_reset_and_hazards.md` R103). -/

namespace Sys2Proof.Machine

variable {F : Family}

/-- Settles O6, by the step lemma for a legal word. -/
theorem stepRunsTheDecodedCommand : Obligations.StepRunsTheDecodedCommand := by
  unfold Obligations.StepRunsTheDecodedCommand
  intro F u p c rest i hd hp
  exact step_command u p c rest i hp hd

/-- Settles O7, by the step lemma for an idle unit. -/
theorem idleUnitHoldsItsState : Obligations.IdleUnitHoldsItsState := by
  unfold Obligations.IdleUnitHoldsItsState
  exact fun s h => step_idle s.unit s.port h

/-- Of the port a command that answers a next state reads the payload lines only: in every port with the same payload
it leaves the same unit and gives the same response. -/
theorem exec_next_of_wdata_eq {i : Instr} {u : UnitState F} {p : Port F} {t : State}
    (h : exec i ⟨F, u, p⟩ = .next t) :
    ∃ u' err d, ∀ q : Port F, q.wdata = p.wdata → exec i ⟨F, u, q⟩ = .next ⟨F, u', q.respond err d⟩ := by
  by_cases hld : ∃ rd, i = .ld rd
  · obtain ⟨rd, rfl⟩ := hld
    by_cases hv : (unpack p.wdata).Valid
    · exact ⟨_, _, _, fun q hq => hq ▸ execLd_valid u q rd (hq ▸ hv)⟩
    · exact ⟨_, _, _, fun q hq => execLd_invalid u q rd (hq ▸ hv)⟩
  · obtain ⟨r, hr⟩ | ⟨u', hu'⟩ := exec_of_ne_ld i u (not_exists.mp hld)
    · rw [hr p] at h
      cases h
    · exact ⟨u', _, _, fun q _ => hu' q⟩

/-- Every command is LD, RD or RDST, or it completes with a value that the registers alone determine, refusing where
they determine none. -/
theorem exec_eq_completeWith (i : Instr) (u : UnitState F) :
    (∃ rd, i = .ld rd) ∨ (∃ ra, i = .readOut ra) ∨ i = .rdst ∨
      ∃ (rd : RegNum) (o : Option (AddressValue F)), ∀ st p,
        exec i ⟨F, { u with STATUS := st }, p⟩ = State.completeWith ⟨F, { u with STATUS := st }, p⟩ rd o := by
  cases i with
  | ld rd => exact .inl ⟨rd, rfl⟩
  | readOut ra => exact .inr (.inl ⟨ra, rfl⟩)
  | rdst => exact .inr (.inr (.inl rfl))
  | mov rd ra => exact .inr (.inr (.inr ⟨rd, some (u.read ra), fun _ _ => rfl⟩))
  | not rd ra => exact .inr (.inr (.inr ⟨rd, some (u.read ra).notF, fun _ _ => rfl⟩))
  | and rd ra rb => exact .inr (.inr (.inr ⟨rd, some ((u.read ra).andF (u.read rb)), fun _ _ => rfl⟩))
  | or rd ra rb => exact .inr (.inr (.inr ⟨rd, some ((u.read ra).orF (u.read rb)), fun _ _ => rfl⟩))
  | xor rd ra rb => exact .inr (.inr (.inr ⟨rd, some ((u.read ra).xorF (u.read rb)), fun _ _ => rfl⟩))
  | mask rd ra => exact .inr (.inr (.inr ⟨rd, (u.read ra).netmaskF, fun _ _ => rfl⟩))
  | net rd ra => exact .inr (.inr (.inr ⟨rd, (u.read ra).networkF, fun _ _ => rfl⟩))
  | bcast rd ra => exact .inr (.inr (.inr ⟨rd, (u.read ra).broadcastF, fun _ _ => rfl⟩))

/-- Settles O23: LD works from the payload, RD from a register, and every other command but RDST completes with a value
of the registers. -/
theorem noResultDependsOnAFlag : Obligations.NoResultDependsOnAFlag := by
  unfold Obligations.NoResultDependsOnAFlag
  intro i F u p st
  obtain ⟨rd, rfl⟩ | ⟨ra, rfl⟩ | rfl | ⟨rd, o, hexec⟩ := exec_eq_completeWith i u
  · by_cases hv : (unpack p.wdata).Valid
    · exact .inr ⟨_, _, _, _, execLd_valid u p rd hv, execLd_valid _ p rd hv, rfl, fun _ => rfl⟩
    · exact .inr ⟨_, _, _, _, execLd_invalid u p rd hv, execLd_invalid _ p rd hv, rfl, fun _ => rfl⟩
  · exact .inr ⟨_, _, _, _, exec_readOut u p ra, exec_readOut _ p ra, rfl, fun _ => rfl⟩
  · exact .inr ⟨_, _, _, _, exec_rdst u p, exec_rdst _ p, rfl, fun h => absurd rfl h⟩
  · cases o with
    | none => exact .inl ⟨_, hexec u.STATUS p, hexec st p⟩
    | some v => exact .inr ⟨_, _, _, _, hexec u.STATUS p, hexec st p, rfl, fun _ => rfl⟩

/-- What a command does in two units with the same registers and two ports with the same payload: where it has a next
state in the first it has one in the second, with the same registers and, but for RDST, the same response. -/
theorem exec_next_of_STATUS {i : Instr} {u : UnitState F} {p : Port F} {t : State} (h : exec i ⟨F, u, p⟩ = .next t)
    (st : Status) :
    ∃ (u₁ u₂ : UnitState F) (x y : Response F), t = ⟨F, u₁, p.respond x.err x.rdata⟩ ∧ u₁.A = u₂.A ∧ (i ≠ .rdst → y = x) ∧
      ∀ q : Port F, q.wdata = p.wdata →
        exec i ⟨F, { u with STATUS := st }, q⟩ = .next ⟨F, u₂, q.respond y.err y.rdata⟩ := by
  obtain ⟨r, hr, -⟩ | ⟨u₁, p₁, u₂, p₂, h₁, h₂, hA, hport⟩ := noResultDependsOnAFlag i F u p st
  · rw [hr] at h
    cases h
  obtain ⟨_, err, d, hall⟩ := exec_next_of_wdata_eq h₁
  obtain ⟨_, err', d', hall'⟩ := exec_next_of_wdata_eq h₂
  cases h₁.symm.trans (hall p rfl)
  cases h₂.symm.trans (hall' p rfl)
  refine ⟨u₁, u₂, ⟨err, d⟩, ⟨err', d'⟩, Host.Outcome.next.inj (h.symm.trans h₁), hA, fun hi => ?_, hall'⟩
  simpa using (congrArg Port.responses (hport hi)).symm

/-! ### Runs of commands -/

/-- A step with a command pending that has a next state takes the command, with one response, and does the same
whatever the host will do afterwards (R38). -/
theorem step_command_next {u : UnitState F} {p : Port F} {c : Command F} {rest : List (Event F)} {t : State}
    (hp : p.pending = .command c :: rest) (h : step ⟨F, u, p⟩ = .next t) :
    ∃ u' err d, ∀ q : Port F, ∀ later, q.pending = .command c :: later →
      step ⟨F, u, q⟩ = .next ⟨F, u', Port.respond { q with wdata := c.wdata, pending := later } err d⟩ := by
  cases hd : decode c.cmd with
  | error e => exact ⟨_, _, _, fun q later hq => step_illegal u q c later e hq hd⟩
  | ok i =>
    rw [step_command u p c rest i hp hd] at h
    obtain ⟨u', err, d, hexec⟩ := exec_next_of_wdata_eq h
    exact ⟨u', err, d, fun q later hq => (step_command u q c later i hq hd).trans (hexec _ rfl)⟩

theorem run_succ_of_step {u : UnitState F} {p : Port F} {t : State} (h : step ⟨F, u, p⟩ = .next t) (n : Nat) :
    Host.Core.run core (n + 1) (State.mk F u p) = Host.Core.run core n t := by
  rw [run_succ, h]

/-- Settles O15, by induction on the commands: each step takes one command and gives its response. -/
theorem everyCommandGetsItsResponse : Obligations.EveryCommandGetsItsResponse := by
  unfold Obligations.EveryCommandGetsItsResponse
  intro F cs
  induction cs with
  | nil => exact fun u p _ hp => ⟨u, p, [], rfl, hp, (List.append_nil _).symm, rfl⟩
  | cons c cs ih =>
    intro u p hinv hp
    obtain ⟨t, ht, htinv⟩ := everyStepAnswersANextState _ hinv
    obtain ⟨u₁, err, d, hstep⟩ := step_command_next hp ht
    obtain rfl := Host.Outcome.next.inj (ht.symm.trans (hstep p _ hp))
    obtain ⟨u', p', rs, hrun, hpend, hresp, hlen⟩ := ih u₁ _ htinv rfl
    refine ⟨u', p', ⟨err, d⟩ :: rs, (run_succ_of_step ht _).trans hrun, hpend, ?_, congrArg (· + 1) hlen⟩
    rw [hresp, Port.respond_responses, List.append_assoc]
    rfl

/-- A run of commands takes the first one, which does the same whatever comes behind it, and then runs the others. -/
theorem run_commands_cons {c : Command F} {cs : List (Command F)} {u : UnitState F} {p : Port F} {t : State}
    (hp : p.pending = (c :: cs).map .command) (h : Host.Core.run core (c :: cs).length (State.mk F u p) = .next t) :
    ∃ u₁ err d, (∀ q : Port F, ∀ later, q.pending = .command c :: later →
        step ⟨F, u, q⟩ = .next ⟨F, u₁, Port.respond { q with wdata := c.wdata, pending := later } err d⟩) ∧
      Host.Core.run core cs.length
        (State.mk F u₁ (Port.respond { p with wdata := c.wdata, pending := cs.map .command } err d)) = .next t := by
  rw [List.length_cons] at h
  cases hst : step ⟨F, u, p⟩ with
  | next s =>
    obtain ⟨u₁, err, d, hstep⟩ := step_command_next hp hst
    rw [run_succ_of_step (hstep p _ hp)] at h
    exact ⟨u₁, err, d, hstep, h⟩
  | fault r => nomatch r
  | refused r => rw [run_succ, hst] at h; cases h

/-- A run of commands does the same whatever events come behind them. -/
theorem run_commands_append (cs : List (Command F)) (later : List (Event F)) {u u' : UnitState F} {p p' : Port F}
    (hp : p.pending = cs.map .command)
    (h : Host.Core.run core cs.length (State.mk F u p) = .next (State.mk F u' p')) :
    Host.Core.run core cs.length (State.mk F u { p with pending := cs.map .command ++ later }) =
      .next (State.mk F u' { p' with pending := later }) := by
  induction cs generalizing u p with
  | nil => cases h; rfl
  | cons c cs ih =>
    obtain ⟨u₁, err, d, hstep, hrun⟩ := run_commands_cons hp h
    rw [List.length_cons, run_succ_of_step (hstep _ (cs.map .command ++ later) rfl)]
    exact ih rfl hrun

/-- Settles O16, by induction on the commands. -/
theorem laterEventsHaveNoEffectOnEarlierCommands : Obligations.LaterEventsHaveNoEffectOnEarlierCommands := by
  unfold Obligations.LaterEventsHaveNoEffectOnEarlierCommands
  intro F cs later u u' p p' h
  exact run_commands_append (p := { p with pending := cs.map .command }) cs later rfl h

theorem Status.eq_clear_of_word_eq_zero {st : Status} (h : st.word = 0) : st = .clear := by
  obtain ⟨ill, ipl⟩ := st
  revert ill ipl; decide

/-- A run of commands, with no reset among them, keeps flags and responses in step. -/
theorem run_commands_keeps_flagsTellResponses (cs : List (Command F)) {u : UnitState F} {p : Port F} {t : State}
    (hp : p.pending = cs.map .command) (h : Host.Core.run core cs.length (State.mk F u p) = .next t)
    (hs : State.FlagsTellResponses ⟨F, u, p⟩) : t.FlagsTellResponses := by
  induction cs generalizing u p with
  | nil => cases h; exact hs
  | cons c cs ih =>
    obtain ⟨u₁, err, d, hstep, hrun⟩ := run_commands_cons hp h
    exact ih rfl hrun (step_keeps_flagsTellResponses _ _ hs (by simp [hp]) (hstep p _ hp))

/-- Settles O22: a run from clear flags and no response starts with flags and responses in step. -/
theorem statusRecordsTheFaultsOfARun : Obligations.StatusRecordsTheFaultsOfARun := by
  unfold Obligations.StatusRecordsTheFaultsOfARun
  intro F cs u u' p p' hst hresp hp hrun
  exact run_commands_keeps_flagsTellResponses cs hp hrun
    (flagsTellResponses_of_clear (Status.eq_clear_of_word_eq_zero hst) hresp)

/-- A faulting command sets a flag and gives a response, and does nothing else (R90). -/
theorem step_faulting {bad : Command F}
    (hbad : (∃ e, decode bad.cmd = .error e) ∨
      (∃ rd, decode bad.cmd = .ok (.ld rd)) ∧ F.T < (bad.wdata.extractLsb' 0 8).toNat) (u : UnitState F) :
    ∃ k : FaultKind, ∀ (p : Port F) (rest : List (Event F)), p.pending = .command bad :: rest →
      step ⟨F, u, p⟩ =
        .next ⟨F, u.setFlag k, Port.respond { p with wdata := bad.wdata, pending := rest } k.code 0⟩ := by
  obtain ⟨e, he⟩ | ⟨⟨rd, hd⟩, hlt⟩ := hbad
  · exact ⟨.illegalCommand, fun p rest hp => step_illegal u p bad rest e hp he⟩
  · exact ⟨.invalidPrefixLength, fun p rest hp => step_ld_of_lt u p bad rest rd hp hd hlt⟩

/-- Settles O18: after the fault the second command finds the same registers and its own payload, with a flag more. -/
theorem faultLeavesTheNextCommandUndisturbed : Obligations.FaultLeavesTheNextCommandUndisturbed := by
  unfold Obligations.FaultLeavesTheNextCommandUndisturbed
  intro F u p bad c rest hu hbad
  obtain ⟨k, hfault⟩ := step_faulting hbad u
  have hrun : ∀ {t : State}, step ⟨F, u.setFlag k,
      Port.respond { p with wdata := bad.wdata, pending := .command c :: rest } k.code 0⟩ = .next t →
      Host.Core.run core 2 (State.mk F u { p with pending := .command bad :: .command c :: rest }) = .next t := by
    intro t ht
    rw [run_succ_of_step (hfault _ _ rfl), run_succ_of_step ht]
    rfl
  cases hd : decode c.cmd with
  | error e =>
    refine ⟨_, _, _, _, ⟨1, 0⟩, ⟨k.code, 0⟩, ⟨1, 0⟩, step_illegal u _ c rest e rfl hd,
      hrun (step_illegal _ _ c rest e rfl hd), rfl, rfl, rfl, ?_, fun _ => rfl⟩
    simp [FaultKind.code]
  | ok i =>
    obtain ⟨t, ht⟩ := exec_total i u { p with wdata := c.wdata, pending := rest } hu
    obtain ⟨u₁, u₂, x, y, rfl, hA, hxy, hexec⟩ := exec_next_of_STATUS ht (u.STATUS.set k)
    refine ⟨u₁, _, u₂, _, x, ⟨k.code, 0⟩, y, (step_command u _ c rest i rfl hd).trans ht,
      hrun ((step_command _ _ c rest i rfl hd).trans (hexec _ rfl)), hA, rfl, rfl, ?_, fun hi => hxy ?_⟩
    · simp
    · rintro rfl
      exact hi rfl

end Sys2Proof.Machine
end
section
/-! The bitwise functions and the netmask (`spec/41_bitwise.md` R62 to R70, `spec/42_netmask.md` R73, R74): laws element
by element, and the netmask's closed form, of the whole address and of each element. -/

namespace Sys2Proof.Machine

variable {F : Family}

@[simp] theorem AddressValue.xorF_flat (a b : AddressValue F) : (a.xorF b).flat = a.flat ^^^ b.flat := by
  refine BitVec.eq_of_getLsbD_eq fun j hj => ?_
  simp [AddressValue.flat_getLsbD _ j hj]

/-- Settles O38: each function is its operation in every lane, and so on `flat`. -/
theorem lanesAreTheFlatOperation : Obligations.LanesAreTheFlatOperation := by
  unfold Obligations.LanesAreTheFlatOperation
  intro F a b
  refine ⟨fun i => ⟨?_, ?_, ?_, ?_⟩, a.notF_flat, a.andF_flat b, a.orF_flat b, a.xorF_flat b, rfl, rfl, rfl, rfl⟩
  · exact a.notF_e i i.isLt
  · exact a.andF_e b i i.isLt
  · exact a.orF_e b i i.isLt
  · exact a.xorF_e b i i.isLt

/-! A law of the bitwise functions is a law of `W`-bit words where both sides have the same prefix length (R70). -/

theorem AddressValue.notF_notF (a : AddressValue F) : a.notF.notF = a :=
  AddressValue.ext_e (fun i hi => by simp) rfl

theorem AddressValue.andF_assoc (a b c : AddressValue F) : (a.andF b).andF c = a.andF (b.andF c) :=
  AddressValue.ext_e (fun i hi => by simp [BitVec.and_assoc]) rfl

theorem AddressValue.orF_assoc (a b c : AddressValue F) : (a.orF b).orF c = a.orF (b.orF c) :=
  AddressValue.ext_e (fun i hi => by simp [BitVec.or_assoc]) rfl

theorem AddressValue.xorF_assoc (a b c : AddressValue F) : (a.xorF b).xorF c = a.xorF (b.xorF c) :=
  AddressValue.ext_e (fun i hi => by simp [BitVec.xor_assoc]) rfl

theorem AddressValue.andF_e_comm (a b : AddressValue F) : (a.andF b).e = (b.andF a).e :=
  Vector.ext fun i hi => by simp [BitVec.and_comm]

theorem AddressValue.orF_e_comm (a b : AddressValue F) : (a.orF b).e = (b.orF a).e :=
  Vector.ext fun i hi => by simp [BitVec.or_comm]

theorem AddressValue.xorF_e_comm (a b : AddressValue F) : (a.xorF b).e = (b.xorF a).e :=
  Vector.ext fun i hi => by simp [BitVec.xor_comm]

theorem AddressValue.andF_self (a : AddressValue F) : a.andF a = a :=
  AddressValue.ext_e (fun i hi => by simp) rfl

theorem AddressValue.orF_self (a : AddressValue F) : a.orF a = a :=
  AddressValue.ext_e (fun i hi => by simp) rfl

theorem AddressValue.notF_andF (a b : AddressValue F) : (a.andF b).notF = a.notF.orF b.notF :=
  AddressValue.ext_e (fun i hi => by simp [BitVec.not_and]) rfl

theorem AddressValue.notF_orF (a b : AddressValue F) : (a.orF b).notF = a.notF.andF b.notF :=
  AddressValue.ext_e (fun i hi => by simp [BitVec.not_or]) rfl

/-- Settles O39: each law holds of the words in every lane, and the prefix length is the left operand's. -/
theorem bitwiseLaws : Obligations.BitwiseLaws := by
  unfold Obligations.BitwiseLaws
  intro F a b c
  refine ⟨a.notF_notF, ⟨a.andF_assoc b c, a.orF_assoc b c, a.xorF_assoc b c⟩,
    ⟨a.andF_e_comm b, a.orF_e_comm b, a.xorF_e_comm b⟩, ⟨a.andF_self, a.orF_self, fun i => ?_, rfl⟩,
    ⟨a.notF_andF b, a.notF_orF b⟩, fun a' b' i ha hb => ?_, fun ha => ⟨ha, ha, ha, ha⟩⟩
  · simp
  · simp only [Fin.getElem_fin] at ha hb
    simp [ha, hb]

/-! ### The netmask -/

/-- Settles O37: the mask engine has no value there, so neither have the two functions over it. -/
theorem maskEngineHasNoValueBeyondTheFamily : Obligations.MaskEngineHasNoValueBeyondTheFamily := by
  unfold Obligations.MaskEngineHasNoValueBeyondTheFamily
  intro F u p rd ra hinvalid i hi
  have hmask : (u.read ra).netmaskF = none := AddressValue.netmaskF_none _ hinvalid
  have hnet : (u.read ra).networkF = none := by rw [AddressValue.networkF, hmask, Option.map_none]
  have hbcast : (u.read ra).broadcastF = none := by rw [AddressValue.broadcastF, hmask, Option.map_none]
  simp only [List.mem_cons, List.not_mem_nil, or_false] at hi
  obtain rfl | rfl | rfl := hi
  · exact congrArg (State.completeWith ⟨F, u, p⟩ rd) hmask
  · exact congrArg (State.completeWith ⟨F, u, p⟩ rd) hnet
  · exact congrArg (State.completeWith ⟨F, u, p⟩ rd) hbcast

theorem AddressValue.valid_of_netmaskF {a m : AddressValue F} (hm : a.netmaskF = some m) : a.Valid :=
  a.netmaskF_isSome.mp (Option.isSome_of_eq_some hm)

/-- The netmask depends on the prefix length only (R74 (a)). -/
theorem AddressValue.netmaskF_congr {a b : AddressValue F} (h : a.plen = b.plen) : a.netmaskF = b.netmaskF := by
  simp only [AddressValue.netmaskF, AddressValue.Valid, AddressValue.hostBits, h]

/-- The netmask as one number: all ones, shifted left by the host bits (R73). -/
theorem AddressValue.netmaskF_flat {a m : AddressValue F} (hm : a.netmaskF = some m) :
    m.flat = ones F.T <<< (F.T - a.plen.toNat) := by
  refine BitVec.eq_of_getLsbD_eq fun j hj => ?_
  rw [AddressValue.netmaskF_bits a m hm j hj, BitVec.getLsbD_shiftLeft, BitVec.getLsbD_allOnes]
  have hlt : j - (F.T - a.plen.toNat) < F.T := by omega
  rw [decide_eq_true hj, decide_eq_true hlt, Bool.true_and, Bool.and_true, ← decide_not]
  exact decide_eq_decide.mpr Nat.not_lt.symm

/-- How far element `i` of the netmask is shifted: by its own bits at or below bit position `plen`, at most all `W`. -/
def laneShift (F : Family) (plen i : Nat) : Nat := min ((i + 1) * F.W - plen) F.W

/-- The bits below element `i`, and those from the most significant end down to its last one. -/
theorem bits_below_add (F : Family) {i : Nat} (hi : i < F.N) : (F.N - 1 - i) * F.W + (i + 1) * F.W = F.T := by
  rw [← Nat.add_mul, Family.T, Nat.mul_comm]
  congr 1
  omega

/-- The netmask element by element: element `i` begins at bit position `i * W`, counted from the most significant end. -/
theorem AddressValue.netmaskF_e {a m : AddressValue F} (hm : a.netmaskF = some m) (i : Nat) (hi : i < F.N) :
    m.e[i] = ones F.W <<< laneShift F a.plen.toNat i := by
  obtain ⟨m', hm', -, he⟩ := a.netmaskF_eq (AddressValue.valid_of_netmaskF hm)
  cases hm.symm.trans hm'
  rw [he i hi]
  congr 2
  have hsum := bits_below_add F hi
  rw [AddressValue.hostBits]
  omega

/-- An element the network portion covers is all ones. -/
theorem AddressValue.netmaskF_e_eq_ones {a m : AddressValue F} (hm : a.netmaskF = some m) {i : Nat} (hi : i < F.N)
    (h : (i + 1) * F.W ≤ a.plen.toNat) : m.e[i] = ones F.W := by
  rw [AddressValue.netmaskF_e hm i hi, laneShift, Nat.sub_eq_zero_of_le h, Nat.zero_min, BitVec.shiftLeft_zero]

/-- An element the host portion covers is 0. -/
theorem AddressValue.netmaskF_e_eq_zero {a m : AddressValue F} (hm : a.netmaskF = some m) {i : Nat} (hi : i < F.N)
    (h : a.plen.toNat ≤ i * F.W) : m.e[i] = 0 := by
  have hshift : laneShift F a.plen.toNat i = F.W := by
    rw [laneShift, Nat.succ_mul]
    omega
  rw [AddressValue.netmaskF_e hm i hi, hshift]
  exact BitVec.shiftLeft_eq_zero (Nat.le_refl _)

/-- All ones shifted left, as a number. -/
theorem toNat_ones_shiftLeft {w k : Nat} (hk : k ≤ w) : (ones w <<< k).toNat = 2 ^ w - 2 ^ k := by
  obtain ⟨c, hc⟩ := Nat.exists_eq_add_of_le (Nat.pow_le_pow_right Nat.two_pos hk)
  obtain ⟨d, hd⟩ := Nat.exists_eq_add_of_lt (Nat.two_pow_pos k)
  have hmul : (2 ^ w - 1) * 2 ^ k = c + 2 ^ w * d := by
    rw [hc, hd, show 0 + d + 1 + c - 1 = d + c by omega]
    ring
  rw [BitVec.toNat_shiftLeft, BitVec.toNat_allOnes, Nat.shiftLeft_eq, hmul, Nat.add_mul_mod_self_left,
    Nat.mod_eq_of_lt (by omega)]
  omega

/-- An element of the netmask as a number. -/
theorem AddressValue.netmaskF_e_toNat {a m : AddressValue F} (hm : a.netmaskF = some m) (i : Nat) (hi : i < F.N) :
    (m.e[i]).toNat = 2 ^ F.W - 2 ^ laneShift F a.plen.toNat i := by
  rw [AddressValue.netmaskF_e hm i hi]
  exact toNat_ones_shiftLeft (Nat.min_le_right _ _)

/-- Settles O40: the walk's elements and bits, with the lane shift worked out in each of the rule's cases. -/
theorem netmaskClosedForm : Obligations.NetmaskClosedForm := by
  unfold Obligations.NetmaskClosedForm
  intro F a hvalid
  obtain ⟨m, hm, -⟩ := a.netmaskF_eq hvalid
  have hW := F.W_pos
  refine ⟨m, hm, AddressValue.netmaskF_flat hm, fun j hj => AddressValue.netmaskF_leadingBit hm hj,
    fun i => ⟨?_, fun hlt => ?_, fun hlt => ?_, fun heq hmod => ?_, fun heq hmod => ?_⟩⟩
  · rintro s rfl
    rw [Fin.getElem_fin, AddressValue.netmaskF_e hm i i.isLt, laneShift]
    have hsum := bits_below_add F i.isLt
    congr 1
    split_ifs <;> omega
  · exact AddressValue.netmaskF_e_eq_ones hm i.isLt ((Nat.le_div_iff_mul_le hW).mp hlt)
  · exact AddressValue.netmaskF_e_eq_zero hm i.isLt ((Nat.div_lt_iff_lt_mul hW).mp hlt).le
  · refine AddressValue.netmaskF_e_eq_zero hm i.isLt ?_
    rw [heq]
    exact (Nat.div_mul_cancel (Nat.dvd_of_mod_eq_zero hmod)).ge
  · have hlt := Nat.mod_lt a.plen.toNat hW
    have hdm := Nat.div_add_mod' a.plen.toNat F.W
    have hshift : laneShift F a.plen.toNat i = F.W - a.plen.toNat % F.W := by
      rw [laneShift, Nat.succ_mul, heq]
      omega
    have hpos := Nat.two_pow_pos (F.W - a.plen.toNat % F.W)
    rw [Fin.getElem_fin, AddressValue.netmaskF_e_toNat hm i i.isLt, hshift]
    omega

/-- The numbers below `n` that are less than `k ≤ n` are `k` in number. -/
theorem countP_lt_range {k n : Nat} (h : k ≤ n) : (List.range n).countP (fun j => decide (j < k)) = k := by
  obtain ⟨d, rfl⟩ := Nat.exists_eq_add_of_le h
  have hadd : Nat.count (· < k) (k + d) = k + 0 := by
    rw [Nat.count_add, Nat.count_of_forall fun _ hj => hj, Nat.count_of_forall_not fun _ => by omega]
  exact hadd

/-- A netmask has exactly `plen` bits set (R74 (i)). -/
theorem AddressValue.netmaskF_countP {a m : AddressValue F} (hm : a.netmaskF = some m) :
    (List.range F.T).countP (fun j => m.leadingBit j) = a.plen.toNat := by
  rw [List.countP_congr (q := fun j => decide (j < a.plen.toNat)), countP_lt_range (AddressValue.valid_of_netmaskF hm)]
  intro j hj
  rw [AddressValue.netmaskF_leadingBit hm (List.mem_range.mp hj)]

/-- At prefix length `T - 1` the last bit alone is 0 (R74 (e)). -/
theorem AddressValue.netmaskF_e_of_plen_eq_pred {a m : AddressValue F} (hm : a.netmaskF = some m)
    (h : a.plen.toNat = F.T - 1) {i : Nat} (hi : i < F.N) :
    (m.e[i]).toNat = if i = F.N - 1 then 2 ^ F.W - 2 else 2 ^ F.W - 1 := by
  have hW := F.W_pos
  have hT : 0 < F.T := Nat.mul_pos hW F.N_pos
  have hsum := bits_below_add F hi
  split
  case isTrue hlast =>
    have hshift : laneShift F a.plen.toNat i = 1 := by
      rw [hlast, Nat.sub_self, Nat.zero_mul] at hsum
      rw [laneShift, hlast, h]
      omega
    rw [AddressValue.netmaskF_e_toNat hm i hi, hshift, pow_one]
  case isFalse hlast =>
    have hbelow : 1 * F.W ≤ (F.N - 1 - i) * F.W := Nat.mul_le_mul_right _ (by omega)
    rw [AddressValue.netmaskF_e_eq_ones hm hi (by omega), BitVec.toNat_allOnes]

/-- At prefix length 1 the first bit alone is 1 (R74 (f)). -/
theorem AddressValue.netmaskF_e_of_plen_eq_one {a m : AddressValue F} (hm : a.netmaskF = some m)
    (h : a.plen.toNat = 1) {i : Nat} (hi : i < F.N) :
    (m.e[i]).toNat = if i = 0 then 2 ^ (F.W - 1) else 0 := by
  have hW := F.W_pos
  split
  case isTrue hfirst =>
    have hshift : laneShift F a.plen.toNat i = F.W - 1 := by
      rw [laneShift, hfirst, h]
      omega
    have hpow : 2 ^ F.W = 2 ^ (F.W - 1) * 2 := (Nat.pow_pred_mul hW).symm
    rw [AddressValue.netmaskF_e_toNat hm i hi, hshift]
    omega
  case isFalse hfirst =>
    have hle : 1 * 1 ≤ i * F.W := Nat.mul_le_mul (by omega) hW
    rw [AddressValue.netmaskF_e_eq_zero hm hi (by omega)]
    rfl

/-- Settles O41, each clause from the element or the bit the prefix length fixes. -/
theorem netmaskProperties : Obligations.NetmaskProperties := by
  unfold Obligations.NetmaskProperties
  refine ⟨fun F a b h => AddressValue.netmaskF_congr h, fun F a m hm => ?_⟩
  have hplen := AddressValue.netmaskF_plen hm
  refine ⟨fun h i => ?_, fun h i => ?_, fun h i => ?_, fun h i => ?_, fun h i => ?_, fun j k hjk hk hset => ?_, hplen,
    (AddressValue.netmaskF_congr hplen).trans hm, AddressValue.netmaskF_countP hm⟩
  · exact AddressValue.netmaskF_e_eq_zero hm i.isLt (by omega)
  · have hsum := bits_below_add F i.isLt
    exact AddressValue.netmaskF_e_eq_ones hm i.isLt (by omega)
  · split
    case isTrue hlt => exact AddressValue.netmaskF_e_eq_ones hm i.isLt ((Nat.le_div_iff_mul_le F.W_pos).mp hlt)
    case isFalse hge =>
      exact AddressValue.netmaskF_e_eq_zero hm i.isLt ((Nat.div_le_iff_le_mul_of_dvd F.W_pos.ne' h).mp (by omega))
  · exact AddressValue.netmaskF_e_of_plen_eq_pred hm h i.isLt
  · exact AddressValue.netmaskF_e_of_plen_eq_one hm h i.isLt
  · rw [AddressValue.netmaskF_leadingBit hm hk, decide_eq_true_iff] at hset
    rw [AddressValue.netmaskF_leadingBit hm (hjk.trans hk)]
    exact decide_eq_true (hjk.trans hset)

end Sys2Proof.Machine
end
section
/-! The network and broadcast derivations (`spec/43_derive.md` R77, R79, R81) on the address as one `T`-bit number: the
network address clears the host bits, the broadcast address sets them. -/

namespace Sys2Proof.Machine

variable {F : Family}

/-- The complement of `ones(n)` shifted left by `k` is `ones(k)`, zero-extended. -/
theorem not_ones_shiftLeft (n k : Nat) : ~~~(ones n <<< k) = (ones k).setWidth n := by
  refine BitVec.eq_of_getLsbD_eq fun j hj => ?_
  simp [hj]

/-- The netmask's complement as one number: the host bits (R79). -/
theorem AddressValue.netmaskF_notF_flat {a m : AddressValue F} (hm : a.netmaskF = some m) :
    m.notF.flat = (ones (F.T - a.plen.toNat)).setWidth F.T := by
  rw [AddressValue.notF_flat, AddressValue.netmaskF_flat hm, not_ones_shiftLeft]

/-- Settles O42: the AND with the netmask, as elements, as one number and bit by bit. -/
theorem networkKeepsTheLeadingBits : Obligations.NetworkKeepsTheLeadingBits := by
  unfold Obligations.NetworkKeepsTheLeadingBits
  intro F a hvalid
  obtain ⟨m, hm, -⟩ := a.netmaskF_eq hvalid
  refine ⟨a.andF m, m, AddressValue.networkF_eq hm, hm, fun i => a.andF_e m i i.isLt, a.andF_plen m, ?_,
    fun j hj => AddressValue.network_leadingBit hm hj⟩
  rw [AddressValue.andF_flat, AddressValue.netmaskF_flat hm]

/-- Settles O43: the OR with the netmask's complement, as elements, as one number and bit by bit. -/
theorem broadcastSetsTheTrailingBits : Obligations.BroadcastSetsTheTrailingBits := by
  unfold Obligations.BroadcastSetsTheTrailingBits
  intro F a hvalid
  obtain ⟨m, hm, -⟩ := a.netmaskF_eq hvalid
  refine ⟨a.orF m.notF, m, AddressValue.broadcastF_eq hm, hm, fun i => AddressValue.broadcast_e a m i i.isLt,
    a.orF_plen _, ?_, fun j hj => AddressValue.broadcast_leadingBit hm hj⟩
  rw [AddressValue.orF_flat, AddressValue.netmaskF_notF_flat hm]

/-! ### The bits of a word under a mask and outside it -/

section
variable {n : Nat} (x m : BitVec n)

theorem and_or_not_mask : (x &&& m) ||| ~~~m = x ||| ~~~m := by
  ext j hj
  simp only [BitVec.getElem_and, BitVec.getElem_or, BitVec.getElem_not]
  generalize x[j] = b, m[j] = c
  revert b c; decide

theorem or_not_mask_and : (x ||| ~~~m) &&& m = x &&& m := by
  simp [BitVec.and_or_distrib_right]

theorem and_xor_or_not_mask : (x &&& m) ^^^ (x ||| ~~~m) = ~~~m := by
  ext j hj
  simp only [BitVec.getElem_xor, BitVec.getElem_and, BitVec.getElem_or, BitVec.getElem_not]
  generalize x[j] = b, m[j] = c
  revert b c; decide

/-- Two words that share no bit add without carry. -/
theorem toNat_or_of_and_eq_zero {x y : BitVec n} (h : x &&& y = 0) : (x ||| y).toNat = x.toNat + y.toNat := by
  rw [← BitVec.add_eq_or_of_and_eq_zero x y h, BitVec.toNat_add_of_and_eq_zero h]

/-- A word under a mask shares no bit with anything outside the mask. -/
theorem and_mask_and_not (y : BitVec n) : (x &&& m) &&& (y &&& ~~~m) = 0 := by
  ext j hj
  simp only [BitVec.getElem_and, BitVec.getElem_not, BitVec.ofNat_eq_ofNat, BitVec.getElem_zero]
  generalize x[j] = b, y[j] = c, m[j] = d
  revert b c d; decide

/-- A word is its bits under a mask and its other bits. -/
theorem toNat_eq_add_masked : x.toNat = (x &&& m).toNat + (x &&& ~~~m).toNat := by
  rw [← toNat_or_of_and_eq_zero (and_mask_and_not x m x), ← BitVec.and_or_distrib_left]
  simp

/-- A word with the bits outside a mask set is the word under the mask and all those bits. -/
theorem toNat_or_not : (x ||| ~~~m).toNat = (x &&& m).toNat + (~~~m).toNat := by
  have hdisjoint := and_mask_and_not x m (BitVec.allOnes n)
  rw [BitVec.allOnes_and] at hdisjoint
  rw [← toNat_or_of_and_eq_zero hdisjoint, and_or_not_mask]

end

/-! ### The laws -/

/-- The network and broadcast addresses lie around the address, `2 ^ (T - plen) - 1` apart (R81 (d)). -/
theorem AddressValue.network_broadcast_bounds {a m : AddressValue F} (hm : a.netmaskF = some m) :
    (a.andF m).flat.toNat ≤ a.flat.toNat ∧ a.flat.toNat ≤ (a.orF m.notF).flat.toNat ∧
      (a.orF m.notF).flat.toNat - (a.andF m).flat.toNat = 2 ^ (F.T - a.plen.toNat) - 1 := by
  have hlow : (~~~m.flat).toNat = 2 ^ (F.T - a.plen.toNat) - 1 := by
    rw [← AddressValue.notF_flat, AddressValue.netmaskF_notF_flat hm,
      BitVec.toNat_setWidth_of_le (Nat.sub_le _ _), BitVec.toNat_allOnes]
  have haddr := toNat_eq_add_masked a.flat m.flat
  have hbcast := toNat_or_not a.flat m.flat
  have hle : (a.flat &&& ~~~m.flat).toNat ≤ (~~~m.flat).toNat := BitVec.toNat_and _ _ ▸ Nat.and_le_right
  rw [AddressValue.andF_flat, AddressValue.orF_flat, AddressValue.notF_flat]
  omega

/-- The bits in which the network and broadcast addresses differ are the host bits (R81 (e)). -/
theorem AddressValue.network_xorF_broadcast_e (a m : AddressValue F) :
    ((a.andF m).xorF (a.orF m.notF)).e = m.notF.e :=
  Vector.ext fun i hi => by simp [and_xor_or_not_mask]

theorem AddressValue.broadcast_andF (a m : AddressValue F) : (a.orF m.notF).andF m = a.andF m :=
  AddressValue.ext_e (fun i hi => by simp [or_not_mask_and]) rfl

theorem AddressValue.network_orF (a m : AddressValue F) : (a.andF m).orF m.notF = a.orF m.notF :=
  AddressValue.ext_e (fun i hi => by simp [and_or_not_mask]) rfl

/-- R81 (g) for the network: MASK into a scratch register, then AND, leaves what NET leaves. -/
theorem mask_and_eq_net (u : UnitState F) (p : Port F) (rd : RegNum) {ra m : RegNum} (hm : m ≠ ra)
    (hvalid : (u.read ra).Valid) :
    ∃ u₁ p₁ u₂ p₂ u' p', exec (.mask m ra) ⟨F, u, p⟩ = .next ⟨F, u₁, p₁⟩ ∧
      exec (.and rd ra m) ⟨F, u₁, p₁⟩ = .next ⟨F, u₂, p₂⟩ ∧
      exec (.net rd ra) ⟨F, u, p⟩ = .next ⟨F, u', p'⟩ ∧ u₂.read rd = u'.read rd := by
  obtain ⟨v, hv, -⟩ := (u.read ra).netmaskF_eq hvalid
  refine ⟨_, _, _, _, _, _, exec_mask u p m hv, exec_and _ _ rd ra m, exec_net u p rd hv, ?_⟩
  simp [hm.symm]

/-- R81 (g) for the broadcast: MASK into a scratch register, NOT of it, then OR, leaves what BCAST leaves. -/
theorem mask_not_or_eq_bcast (u : UnitState F) (p : Port F) (rd : RegNum) {ra m : RegNum} (hm : m ≠ ra)
    (hvalid : (u.read ra).Valid) :
    ∃ u₁ p₁ u₂ p₂ u₃ p₃ u' p', exec (.mask m ra) ⟨F, u, p⟩ = .next ⟨F, u₁, p₁⟩ ∧
      exec (.not m m) ⟨F, u₁, p₁⟩ = .next ⟨F, u₂, p₂⟩ ∧
      exec (.or rd ra m) ⟨F, u₂, p₂⟩ = .next ⟨F, u₃, p₃⟩ ∧
      exec (.bcast rd ra) ⟨F, u, p⟩ = .next ⟨F, u', p'⟩ ∧ u₃.read rd = u'.read rd := by
  obtain ⟨v, hv, -⟩ := (u.read ra).netmaskF_eq hvalid
  refine ⟨_, _, _, _, _, _, _, _, exec_mask u p m hv, exec_not _ _ m m, exec_or _ _ rd ra m, exec_bcast u p rd hv, ?_⟩
  simp [hm.symm]

/-- Settles O44: the laws of the two functions from their bits, and (g) from what each command writes. -/
theorem derivationLaws : Obligations.DerivationLaws := by
  unfold Obligations.DerivationLaws
  refine ⟨fun F a hvalid => ?_, fun F u p rd ra m hm hvalid =>
    ⟨mask_and_eq_net u p rd hm hvalid, mask_not_or_eq_bcast u p rd hm hvalid⟩⟩
  obtain ⟨m, hm, -⟩ := a.netmaskF_eq hvalid
  obtain ⟨hnet, hbcast, hdiff⟩ := AddressValue.network_broadcast_bounds hm
  refine ⟨m, a.andF m, a.orF m.notF, hm, AddressValue.networkF_eq hm, AddressValue.broadcastF_eq hm, fun j hj => ?_,
    fun j hj => ?_, a.andF_plen m, a.orF_plen _, hnet, hbcast, hdiff, a.network_xorF_broadcast_e m, ?_, ?_⟩
  · rw [AddressValue.andF_leadingBit]
    exact ⟨fun h => by rw [h, Bool.and_false], fun h => by rw [h, Bool.and_true]⟩
  · rw [AddressValue.orF_leadingBit, AddressValue.notF_leadingBit m hj]
    exact ⟨fun h => by rw [h, Bool.not_false, Bool.or_true], fun h => by rw [h, Bool.not_true, Bool.or_false]⟩
  · rw [AddressValue.networkF_eq ((AddressValue.netmaskF_congr (a.orF_plen _)).trans hm), a.broadcast_andF m]
  · rw [AddressValue.broadcastF_eq ((AddressValue.netmaskF_congr (a.andF_plen m)).trans hm), a.network_orF m]

end Sys2Proof.Machine
end
section
/-! Reading the state out (`spec/70_reset_and_hazards.md` R105, `spec/10_state.md` R22), and the commands a host uses in
place of pseudo-instructions (`spec/30_encoding.md` R58). -/

namespace Sys2Proof.Machine

variable {F : Family}

/-- Settles O21, bit by bit of the STATUS word. -/
theorem statusWordIsItsTwoFlags : Obligations.StatusWordIsItsTwoFlags := by
  unfold Obligations.StatusWordIsItsTwoFlags
  intro st
  refine ⟨st.word_getLsbD_zero, st.word_getLsbD_one, ?_, st.word_toNat_lt⟩
  refine BitVec.eq_of_getLsbD_eq fun j hj => ?_
  rw [BitVec.getLsbD_extractLsb', st.word_getLsbD_of_two_le (Nat.le_add_right 2 j), Bool.and_false]
  exact BitVec.getLsbD_zero.symm

theorem AddressValue.pack_injective : Function.Injective (AddressValue.pack (F := F)) :=
  Function.LeftInverse.injective unpack_pack

/-- STATUS as read data tells both flags. -/
theorem Status.eq_of_zextData_word_eq {st st' : Status}
    (h : (zextData st.word : BitVec F.dataW) = zextData st'.word) : st = st' := by
  have hbit : ∀ j, st.word.getLsbD j = st'.word.getLsbD j := fun j => by
    rw [← zextData_getLsbD (F := F), h, zextData_getLsbD]
  have hill := hbit 0
  have hipl := hbit 1
  rw [st.word_getLsbD_zero, st'.word_getLsbD_zero] at hill
  rw [st.word_getLsbD_one, st'.word_getLsbD_one] at hipl
  cases st
  cases st'
  exact congrArg₂ Status.mk hill hipl

/-- Equal lists of responses after one more response each: the same read data. -/
theorem Port.rdata_eq_of_respond_eq {p : Port F} {err err' : BitVec 2} {d d' : BitVec F.dataW}
    (h : (p.respond err d).responses = (p.respond err' d').responses) : d = d' := by
  rw [Port.respond_responses, Port.respond_responses, List.append_cancel_left_eq, List.singleton_inj] at h
  exact congrArg Response.rdata h

/-- Settles O46: `pack` is injective and so is the STATUS word, so the read data fix every register and both flags. -/
theorem readsShowTheWholeState : Obligations.ReadsShowTheWholeState := by
  unfold Obligations.ReadsShowTheWholeState
  refine fun F => ⟨fun u p i hi => ?_, fun u v p h => ?_⟩
  · have hreading : (∃ ra, i = .readOut ra) ∨ i = .rdst := by
      simp only [List.mem_cons, List.not_mem_nil, or_false] at hi
      obtain hi | hi | hi | hi | hi := hi
      exacts [.inl ⟨0, hi⟩, .inl ⟨1, hi⟩, .inl ⟨2, hi⟩, .inl ⟨3, hi⟩, .inr hi]
    obtain ⟨d, hd⟩ := exec_reading u i hreading
    exact ⟨_, hd p⟩
  · have hmem : ∀ r, Instr.readOut r ∈ [Instr.readOut 0, .readOut 1, .readOut 2, .readOut 3, .rdst] := by decide
    refine UnitState.ext_read (fun r => AddressValue.pack_injective ?_) (Status.eq_of_zextData_word_eq (F := F) ?_)
    · obtain ⟨_, _, _, _, hu, hv, hresp⟩ := h _ (hmem r)
      cases hu
      cases hv
      exact Port.rdata_eq_of_respond_eq hresp
    · obtain ⟨_, _, _, _, hu, hv, hresp⟩ := h .rdst (by decide)
      cases hu
      cases hv
      exact Port.rdata_eq_of_respond_eq hresp

/-- MASK then NOT leaves the host mask: bit `j` is 1 from the prefix length on (R58). -/
theorem mask_not_leadingBit (u : UnitState F) (p : Port F) (r ra : RegNum) (hvalid : (u.read ra).Valid) :
    ∃ u₁ p₁ u₂ p₂, exec (.mask r ra) ⟨F, u, p⟩ = .next ⟨F, u₁, p₁⟩ ∧
      exec (.not r r) ⟨F, u₁, p₁⟩ = .next ⟨F, u₂, p₂⟩ ∧
      ∀ j < F.T, (u₂.read r).leadingBit j = decide ((u.read ra).plen.toNat ≤ j) := by
  obtain ⟨m, hm, -⟩ := (u.read ra).netmaskF_eq hvalid
  refine ⟨_, _, _, _, exec_mask u p r hm, exec_not _ _ r r, fun j hj => ?_⟩
  rw [UnitState.read_write_self, UnitState.read_write_self, AddressValue.notF_leadingBit m hj,
    AddressValue.netmaskF_leadingBit hm hj, ← decide_not]
  exact decide_eq_decide.mpr Nat.not_lt

/-- Settles O48: reading and MOV to itself keep the unit, XOR with itself gives elements 0, MASK then NOT the host mask. -/
theorem commandsInPlaceOfPseudoInstructions : Obligations.CommandsInPlaceOfPseudoInstructions := by
  unfold Obligations.CommandsInPlaceOfPseudoInstructions
  refine fun F u p r ra => ⟨fun i hi => ?_, ?_, mask_not_leadingBit u p r ra⟩
  · simp only [List.mem_cons, List.not_mem_nil, or_false] at hi
    obtain rfl | rfl | rfl := hi
    · exact ⟨_, exec_rdst u p⟩
    · exact ⟨_, exec_readOut u p r⟩
    · have hmov := exec_mov u p r r
      rw [u.write_read r] at hmov
      exact ⟨_, hmov⟩
  · refine ⟨_, _, exec_xor u p r r r, ?_, ?_, u.sameBut_write r _⟩
    all_goals rw [UnitState.read_write_self]
    · rw [AddressValue.xorF_flat, BitVec.xor_self]
      rfl
    · exact AddressValue.xorF_plen _ _

end Sys2Proof.Machine
end

section
/-! The assembler (`spec/30_encoding.md` R56, R58): which values assemble and to what, and what the unit makes of them. -/

namespace Sys2Proof.Machine

variable {F : Family}

/-- `N` elements of `W` bits and an 8-bit prefix length assemble to the value with just these numbers (R56). -/
theorem assembleElements_eq_ok {es : List Nat} {n : Nat} (hlen : es.length = F.N) (hes : ∀ x ∈ es, x < 2 ^ F.W)
    (hn : n < 2 ^ 8) :
    ∃ v : AddressValue F, assembleElements F es n = .ok v ∧ v.e.toList.map BitVec.toNat = es ∧ v.plen.toNat = n := by
  have hrange : es.any (fun x => 2 ^ F.W ≤ x) = false := by simpa using hes
  refine ⟨_, by rw [assembleElements, if_neg (not_not.mpr hlen), hrange, if_neg Bool.false_ne_true,
    if_neg hn.not_ge], List.ext_getElem (by simp [hlen]) fun i hi hi' => ?_, ?_⟩
  · have hlt := hes _ (List.getElem_mem hi')
    simp [hi', Nat.mod_eq_of_lt hlt]
  · rw [BitVec.toNat_ofNat, Nat.mod_eq_of_lt hn]

/-- A wrong count, an element of more than `W` bits or a prefix length of more than 8 bits does not assemble (R56). -/
theorem assembleElements_eq_error {es : List Nat} {n : Nat}
    (h : es.length ≠ F.N ∨ (∃ x ∈ es, 2 ^ F.W ≤ x) ∨ 2 ^ 8 ≤ n) : ∃ e, assembleElements F es n = .error e := by
  unfold assembleElements
  split
  case isTrue => exact ⟨_, rfl⟩
  split
  case isTrue => exact ⟨_, rfl⟩
  split
  case isTrue => exact ⟨_, rfl⟩
  case isFalse hlen hes hn =>
    obtain hcount | ⟨x, hx, hle⟩ | hle := h
    · exact absurd hcount hlen
    · exact absurd (List.any_eq_true.mpr ⟨x, hx, decide_eq_true hle⟩) hes
    · exact absurd hle hn

theorem assemble_ld (rd : RegNum) (v : Literal) :
    assemble F ⟨.ld rd, some v⟩ = (assembleValue F v).map fun w => ⟨encode (.ld rd), w⟩ := rfl

theorem assembleValue_elements (es : List Nat) (n : Nat) :
    assembleValue F (.elements es n) = (assembleElements F es n).map AddressValue.pack := rfl

/-- On v4 the dotted form is the braces form; on v6 it does not assemble (R56). -/
theorem assembleValue_dotted (es : List Nat) (n : Nat) :
    assembleValue F (.dotted es n) = if F = .v4 then assembleValue F (.elements es n) else .error .dottedForm := rfl

/-- Settles O49: the payload is the `pack` of the value with just these numbers, so LD unpacks it again. -/
theorem assembledLdLoadsItsLiteral : Obligations.AssembledLdLoadsItsLiteral := by
  unfold Obligations.AssembledLdLoadsItsLiteral
  intro F rd es n hlen hes hn
  obtain ⟨v, hv, helems, hplen⟩ := assembleElements_eq_ok hlen hes hn
  have hunpack : (unpack v.pack).Valid ↔ n ≤ F.T := by rw [unpack_pack, AddressValue.Valid, hplen]
  have hdecode := decode_encode (.ld rd)
  refine ⟨⟨encode (.ld rd), v.pack⟩, ?_, hdecode, fun u p rest => ?_⟩
  · rw [assemble_ld, assembleValue_elements, hv]
    rfl
  · rw [step_command u _ ⟨encode (.ld rd), v.pack⟩ rest _ rfl hdecode]
    by_cases hle : n ≤ F.T
    · refine ⟨_, _, execLd_valid u _ rd (hunpack.mpr hle), fun _ => ⟨?_, ?_, rfl⟩, fun hlt => absurd hle hlt.not_ge⟩
      all_goals rw [UnitState.read_write_self, unpack_pack]
      · exact helems
      · exact hplen
    · exact ⟨_, _, execLd_invalid u _ rd (mt hunpack.mp hle), fun h => absurd h hle, fun _ => ⟨rfl, rfl⟩⟩

/-- Settles O50: a value that does not fit has no assembled elements, in whichever form it is written. -/
theorem assemblerRefusesWhatDoesNotFit : Obligations.AssemblerRefusesWhatDoesNotFit := by
  unfold Obligations.AssemblerRefusesWhatDoesNotFit
  refine ⟨fun F rd es n h => ?_, fun rd es n => ?_, by decide⟩
  · obtain ⟨e, he⟩ := assembleElements_eq_error h
    have helems : assembleValue F (.elements es n) = .error e := by rw [assembleValue_elements, he]; rfl
    refine ⟨⟨e, by rw [assemble_ld, helems]; rfl⟩, ?_⟩
    rw [assemble_ld, assembleValue_dotted, helems]
    split
    · exact ⟨_, rfl⟩
    · exact ⟨_, rfl⟩
  · rw [assemble_ld, assembleValue_dotted, if_pos rfl, assemble_ld]

/-- A line assembles to its command's word (R58). -/
theorem cmd_of_assemble {l : Line} {c : Command F} (h : assemble F l = .ok c) : c.cmd = encode l.instr := by
  unfold assemble at h
  split at h
  · cases h
  · cases hv : assembleValue F ‹_› with
    | error e => rw [hv] at h; cases h
    | ok w => rw [hv] at h; cases h; rfl
  · cases h; rfl
  · cases h

/-- A program assembles when its first line and its other lines do, in that order (R58). -/
theorem assembleProgram_cons {l : Line} {ls : List Line} {cs : List (Command F)}
    (h : assembleProgram F (l :: ls) = .ok cs) :
    ∃ c cs', assemble F l = .ok c ∧ assembleProgram F ls = .ok cs' ∧ cs = c :: cs' := by
  rw [assembleProgram] at h
  cases hc : assemble F l with
  | error e => rw [hc] at h; cases h
  | ok c =>
    cases hcs : assembleProgram F ls with
    | error e => rw [hc, hcs] at h; cases h
    | ok cs' => rw [hc, hcs] at h; cases h; exact ⟨c, cs', rfl, rfl, rfl⟩

/-- One command per line, in order, each decoding to its line's command (R58). -/
theorem forall₂_of_assembleProgram {ls : List Line} {cs : List (Command F)} (h : assembleProgram F ls = .ok cs) :
    List.Forall₂ (fun l c => decode c.cmd = .ok l.instr) ls cs := by
  induction ls generalizing cs with
  | nil => cases h; exact .nil
  | cons l ls ih =>
    obtain ⟨c, cs', hc, hcs, rfl⟩ := assembleProgram_cons h
    exact .cons ((decode_eq_ok_iff _ _).mpr (cmd_of_assemble hc)) (ih hcs)

/-- Settles O51, by induction on the lines; a hexadecimal payload that fits is its own number. -/
theorem assemblerEmitsOneWordPerLine : Obligations.AssemblerEmitsOneWordPerLine := by
  unfold Obligations.AssemblerEmitsOneWordPerLine
  refine ⟨fun F ls cs h => forall₂_of_assembleProgram h, fun F rd n => ⟨fun hlt => ?_, fun hle => ?_⟩⟩
  · refine ⟨⟨encode (.ld rd), BitVec.ofNat _ n⟩, ?_, rfl, ?_⟩
    · rw [assemble_ld, assembleValue, if_pos hlt]
      rfl
    · rw [BitVec.toNat_ofNat, Nat.mod_eq_of_lt hlt]
  · rw [assemble_ld, assembleValue, if_neg hle.not_gt]
    exact ⟨_, rfl⟩

end Sys2Proof.Machine
end
